-- ==== Sys2Proof/Word.lean ====
section
/-! DEFINITION. The words of the machine: an element of the field, a command word, an immediate, a polynomial. -/

namespace Sys2Proof

/-- A field element, or one cell of a table: 8 bits (`00_scope.md` R8, `10_state.md` R13, R17). -/
abbrev Byte := BitVec 8

/-- A command word, STATUS or FCMD: 32 bits, handed over whole (`20_memory.md` R33, `30_encoding.md` R46). -/
abbrev Word32 := BitVec 32

/-- The immediate field of a command word: an unsigned 16-bit value (`30_encoding.md` R49). -/
abbrev Imm := BitVec 16

/-- The value of a polynomial register: a sequence of field elements, index `i` holding the coefficient of degree
`i`; the empty sequence is "holds no polynomial" (`00_scope.md` R9, `10_state.md` R14, R15). -/
abbrev Poly := List Byte

end Sys2Proof
end

