-- ==== Sys2Proof/Syntax.lean ====
section
/-! DEFINITION. The twelve commands with their operands: one constructor per row of spec/opcode_table.json. -/

namespace Sys2Proof

/-- The number of a scalar register, `s0` to `s15` (`10_state.md` R13). -/
abbrev SReg := Fin 16

/-- The number of a polynomial register, `p0` to `p15` (`10_state.md` R14). -/
abbrev PReg := Fin 16

/-- A command, operands in the order RD, RA, then RB or IMM (`30_encoding.md` R47, R48, R52). The operand types admit
exactly the field values R46 calls legal, so every term is a command some word spells. -/
inductive Instr where
  /-- EXPRD sd, #i: reads EXP (`40_tables.md` R69). -/
  | exprd (rd : SReg) (imm : Imm)
  /-- LOGRD sd, sa: reads LOG (`40_tables.md` R70). -/
  | logrd (rd ra : SReg)
  /-- GFADD sd, sa, sb; also spelled GFSUB (`41_field_ops.md` R72, `30_encoding.md` R53). -/
  | gfadd (rd ra rb : SReg)
  /-- GFMUL sd, sa, sb (`41_field_ops.md` R74). -/
  | gfmul (rd ra rb : SReg)
  /-- GFDIV sd, sa, sb: `sa` the dividend, `sb` the divisor (`41_field_ops.md` R76). -/
  | gfdiv (rd ra rb : SReg)
  /-- GFINV sd, sa (`41_field_ops.md` R78). -/
  | gfinv (rd ra : SReg)
  /-- GFPOW sd, sa, #n (`41_field_ops.md` R80). -/
  | gfpow (rd ra : SReg) (imm : Imm)
  /-- PEVAL sd, pa, sb: the polynomial `pa` at the point `sb` (`42_poly_ops.md` R87). -/
  | peval (rd : SReg) (ra : PReg) (rb : SReg)
  /-- PMULT pd, pa, pb (`42_poly_ops.md` R91). -/
  | pmult (rd ra rb : PReg)
  /-- PDIVMOD pd, pa, pb: `pa` the dividend, `pb` the divisor (`42_poly_ops.md` R93). -/
  | pdivmod (rd ra rb : PReg)
  /-- PADD pd, pa, pb (`42_poly_ops.md` R89). -/
  | padd (rd ra rb : PReg)
  /-- PDERIV pd, pa (`42_poly_ops.md` R95). -/
  | pderiv (rd ra : PReg)
  deriving DecidableEq, Repr

end Sys2Proof
end

