-- ==== Sys2Proof/WellFormed.lean ====
section
/-! DEFINITION. Which command words are well formed: the opcode map of `30_encoding.md` R48 with its operand forms (R47),
and the legality of a word by R50's mask-and-match reading. Every term of `Instr` is well formed by its operands' types;
what can be ill formed on this hardware is a word. The decoder (Decode.lean) is written from the fields instead. -/

namespace Sys2Proof

/-- The operand forms of `30_encoding.md` R47. -/
inductive Form where
  /-- EXPRD: scalar destination, index immediate; RA and RB must be 0. -/
  | ti
  /-- LOGRD, GFINV: scalar destination and source; RB and IMM must be 0. -/
  | ss
  /-- GFADD, GFMUL, GFDIV: scalar destination and two scalar sources; IMM must be 0. -/
  | sss
  /-- GFPOW: scalar destination and source, exponent immediate; RB must be 0. -/
  | ssi
  /-- PEVAL: scalar destination, polynomial source, scalar source; IMM must be 0. -/
  | sps
  /-- PADD, PMULT, PDIVMOD: polynomial destination and two polynomial sources; IMM must be 0. -/
  | ppp
  /-- PDERIV: polynomial destination and source; RB and IMM must be 0. -/
  | pp
  deriving DecidableEq, Repr

/-- One row of the opcode map (`30_encoding.md` R48). -/
structure OpRow where
  mnemonic : String
  form : Form
  pattern : Word32
  mask : Word32
  deriving DecidableEq, Repr

/-- The opcode map, in the order of R48. -/
def opcodeMap : List OpRow := [
  ⟨"EXPRD", .ti, 0x10000000, 0xF0FF0000⟩,
  ⟨"LOGRD", .ss, 0x20000000, 0xF00FFFFF⟩,
  ⟨"GFADD", .sss, 0x30000000, 0xF000FFFF⟩,
  ⟨"GFMUL", .sss, 0x40000000, 0xF000FFFF⟩,
  ⟨"GFDIV", .sss, 0x50000000, 0xF000FFFF⟩,
  ⟨"GFINV", .ss, 0x60000000, 0xF00FFFFF⟩,
  ⟨"GFPOW", .ssi, 0x70000000, 0xF00F0000⟩,
  ⟨"PEVAL", .sps, 0x80000000, 0xF000FFFF⟩,
  ⟨"PMULT", .ppp, 0x90000000, 0xF000FFFF⟩,
  ⟨"PDIVMOD", .ppp, 0xA0000000, 0xF000FFFF⟩,
  ⟨"PADD", .ppp, 0xB0000000, 0xF000FFFF⟩,
  ⟨"PDERIV", .pp, 0xC0000000, 0xF00FFFFF⟩]

/-- "A word w spells the command exactly when `(w and mask) = match`" (R48). -/
def OpRow.spells (r : OpRow) (w : Word32) : Bool := w &&& r.mask == r.pattern

/-- A word is well formed, that is legal, when some row of the map spells it (R50). -/
def wellFormedWord (w : Word32) : Bool := opcodeMap.any fun r => r.spells w

end Sys2Proof
end

