-- ==== Sys2Proof/Decode.lean ====
section
/-! DEFINITION. Decoding a command word, total and without state (`30_encoding.md` R50, R54), and after it the encoder
(R46), the fixed opcode table reading the host asks for, and the assembler text (R52). -/

namespace Sys2Proof

/-- Why a word spells no command (`30_encoding.md` R50); both raise IllegalCommand when the word is issued. -/
inductive Reject where
  /-- Case (a): OP is 0x0, 0xD, 0xE or 0xF. -/
  | reservedOpcode
  /-- Case (b): a field the command's form marks "must be 0" is not zero. -/
  | mustBeZero
  deriving DecidableEq, Repr

/-- `w[hi:lo]`, the field of bits `hi` down to `lo` inclusive, as a natural (`00_scope.md` R7). -/
def bitField (w : Word32) (hi lo : Nat) : Nat := w.toNat / 2 ^ lo % 2 ^ (hi - lo + 1)

/-- OP, bits 31:28 (R46). -/
def fieldOP (w : Word32) : Nat := bitField w 31 28

/-- RD, bits 27:24 (R46). -/
def fieldRD (w : Word32) : Fin 16 := ⟨bitField w 27 24, Nat.mod_lt _ (by decide)⟩

/-- RA, bits 23:20 (R46). -/
def fieldRA (w : Word32) : Fin 16 := ⟨bitField w 23 20, Nat.mod_lt _ (by decide)⟩

/-- RB, bits 19:16 (R46). -/
def fieldRB (w : Word32) : Fin 16 := ⟨bitField w 19 16, Nat.mod_lt _ (by decide)⟩

/-- IMM, bits 15:0 (R46, R49). -/
def fieldIMM (w : Word32) : Imm := BitVec.ofNat 16 (bitField w 15 0)

/-- The command whose must-be-zero fields are tested: `i` when they are all zero, else case (b) of R50. -/
def whenZero (z : Bool) (i : Instr) : Except Reject Instr := if z then .ok i else .error .mustBeZero

/-- RA = RB = 0, what form TI asks (R47). -/
def zeroTI (w : Word32) : Bool := fieldRA w == 0 && fieldRB w == 0

/-- RB = 0 and IMM = 0, what forms SS and PP ask (R47). -/
def zeroSS (w : Word32) : Bool := fieldRB w == 0 && fieldIMM w == 0

/-- IMM = 0, what forms SSS, SPS and PPP ask (R47). -/
def zeroSSS (w : Word32) : Bool := fieldIMM w == 0

/-- RB = 0, what form SSI asks (R47). -/
def zeroSSI (w : Word32) : Bool := fieldRB w == 0

/-- Decoding (R54): the command of row `op` of R48 with the operands its form uses, or the reason the word is illegal
by R50. -/
def decode (w : Word32) : Except Reject Instr :=
  match fieldOP w with
  | 0x1 => whenZero (zeroTI w) (.exprd (fieldRD w) (fieldIMM w))
  | 0x2 => whenZero (zeroSS w) (.logrd (fieldRD w) (fieldRA w))
  | 0x3 => whenZero (zeroSSS w) (.gfadd (fieldRD w) (fieldRA w) (fieldRB w))
  | 0x4 => whenZero (zeroSSS w) (.gfmul (fieldRD w) (fieldRA w) (fieldRB w))
  | 0x5 => whenZero (zeroSSS w) (.gfdiv (fieldRD w) (fieldRA w) (fieldRB w))
  | 0x6 => whenZero (zeroSS w) (.gfinv (fieldRD w) (fieldRA w))
  | 0x7 => whenZero (zeroSSI w) (.gfpow (fieldRD w) (fieldRA w) (fieldIMM w))
  | 0x8 => whenZero (zeroSSS w) (.peval (fieldRD w) (fieldRA w) (fieldRB w))
  | 0x9 => whenZero (zeroSSS w) (.pmult (fieldRD w) (fieldRA w) (fieldRB w))
  | 0xA => whenZero (zeroSSS w) (.pdivmod (fieldRD w) (fieldRA w) (fieldRB w))
  | 0xB => whenZero (zeroSSS w) (.padd (fieldRD w) (fieldRA w) (fieldRB w))
  | 0xC => whenZero (zeroSS w) (.pderiv (fieldRD w) (fieldRA w))
  | _ => .error .reservedOpcode

/-- `w = OP * 2^28 + RD * 2^24 + RA * 2^20 + RB * 2^16 + IMM` (R46). -/
def pack (op : Nat) (rd ra rb : Fin 16) (imm : Imm) : Word32 :=
  BitVec.ofNat 32 (op * 2 ^ 28 + rd.val * 2 ^ 24 + ra.val * 2 ^ 20 + rb.val * 2 ^ 16 + imm.toNat)

/-- The one word that spells a command (R46, R48): unused fields are zero. -/
def encode : Instr → Word32
  | .exprd rd imm => pack 0x1 rd 0 0 imm
  | .logrd rd ra => pack 0x2 rd ra 0 0
  | .gfadd rd ra rb => pack 0x3 rd ra rb 0
  | .gfmul rd ra rb => pack 0x4 rd ra rb 0
  | .gfdiv rd ra rb => pack 0x5 rd ra rb 0
  | .gfinv rd ra => pack 0x6 rd ra 0 0
  | .gfpow rd ra imm => pack 0x7 rd ra 0 imm
  | .peval rd ra rb => pack 0x8 rd ra rb 0
  | .pmult rd ra rb => pack 0x9 rd ra rb 0
  | .pdivmod rd ra rb => pack 0xA rd ra rb 0
  | .padd rd ra rb => pack 0xB rd ra rb 0
  | .pderiv rd ra => pack 0xC rd ra 0 0

/-- The pseudo-instruction GFSUB sd, sa, sb "assembles to the same word as GFADD sd, sa, sb" (`30_encoding.md` R53). -/
def gfsub (rd ra rb : SReg) : Instr := .gfadd rd ra rb

/-- The command an opcode-table word of `nbits` bits spells, bits numbered from the least significant; the hardware's
command is one 32-bit word handed over whole, so there is nothing to lay out (log entry 19). -/
def decodeTableWord (nbits w : Nat) : Option Instr := (decode (BitVec.ofNat 32 (w % 2 ^ nbits))).toOption

/-- A scalar register in assembler text (`30_encoding.md` R52). -/
def scalarName (r : SReg) : String := "s" ++ toString r.val

/-- A polynomial register in assembler text (R52). -/
def polyName (r : PReg) : String := "p" ++ toString r.val

/-- The assembler text of a command, `MNEMONIC dest, source, source`, immediates in decimal (`30_encoding.md` R52). -/
def assemblyText : Instr → String
  | .exprd rd imm => "EXPRD " ++ scalarName rd ++ ", #" ++ toString imm.toNat
  | .logrd rd ra => "LOGRD " ++ scalarName rd ++ ", " ++ scalarName ra
  | .gfadd rd ra rb => "GFADD " ++ scalarName rd ++ ", " ++ scalarName ra ++ ", " ++ scalarName rb
  | .gfmul rd ra rb => "GFMUL " ++ scalarName rd ++ ", " ++ scalarName ra ++ ", " ++ scalarName rb
  | .gfdiv rd ra rb => "GFDIV " ++ scalarName rd ++ ", " ++ scalarName ra ++ ", " ++ scalarName rb
  | .gfinv rd ra => "GFINV " ++ scalarName rd ++ ", " ++ scalarName ra
  | .gfpow rd ra imm => "GFPOW " ++ scalarName rd ++ ", " ++ scalarName ra ++ ", #" ++ toString imm.toNat
  | .peval rd ra rb => "PEVAL " ++ scalarName rd ++ ", " ++ polyName ra ++ ", " ++ scalarName rb
  | .pmult rd ra rb => "PMULT " ++ polyName rd ++ ", " ++ polyName ra ++ ", " ++ polyName rb
  | .pdivmod rd ra rb => "PDIVMOD " ++ polyName rd ++ ", " ++ polyName ra ++ ", " ++ polyName rb
  | .padd rd ra rb => "PADD " ++ polyName rd ++ ", " ++ polyName ra ++ ", " ++ polyName rb
  | .pderiv rd ra => "PDERIV " ++ polyName rd ++ ", " ++ polyName ra

end Sys2Proof
end

