-- ==== Sys2Proof/Config.lean ====
section
/-! DEFINITION. What the hardware fixes (`00_scope.md` R6), the open parameter MAXLEN, and the one free value. -/

namespace Sys2Proof.Config

/-- FIELD_SIZE, the number of field elements (R6). -/
def fieldSize : Nat := 256

/-- FIELD_ORDER, the number of nonzero elements, the modulus of every exponent (R6). -/
def fieldOrder : Nat := 255

/-- MODULUS, the nine-bit modulus polynomial (R6, `90_conflicts.md` C7). -/
def modulus : Nat := 0x11D

/-- GENERATOR, the element whose powers fill EXP (R6). -/
def generator : Byte := 2

/-- EXP_SIZE (R6, `90_conflicts.md` C2). -/
def expSize : Nat := 512

/-- How far MAXLEN lies above its least value 2: the spec leaves MAXLEN open in 2 to 65535 (R6, D5), so this constant
has no body and every one of the 65534 values is possible. DESIGN CHOICE (log entry 8): safe. -/
opaque maxLenAboveTwo : Fin 65534

/-- MAXLEN, the largest number of coefficients a polynomial register holds; open, 2 to 65535 (R6, D5). -/
def maxLen : Nat := maxLenAboveTwo.val + 2

/-- What scalar register `i` holds after the `k`-th reset, counted from 0: a free value, with no body, since the spec
leaves it unspecified and asks for one draw per register and reset (`10_state.md` R13, `93_implementation_defined.md`
U2). DESIGN CHOICE (log entry 1). -/
opaque scalarDraw (k : Nat) (i : Fin 16) : Byte

end Sys2Proof.Config
end

