-- ==== Sys2Proof/Machine/Tables.lean ====
section
/-! DEFINITION. The tables EXP and LOG: their storage, their construction (`40_tables.md` R59 to R61) and the one read of
each (`00_scope.md` R10, `40_tables.md` R68). -/

namespace Sys2Proof.Machine

/-- The two tables (`10_state.md` R17): EXP with indices 0 to 511, and LOG with the domain 1 to 255 that R68 advises,
entry `v` of LOG in cell `v - 1`. LOG[0] is unspecified and never read, and is not represented (log entry 10). -/
structure Tables where
  exp : Vector Byte 512
  log : Vector Byte 255
  deriving DecidableEq, Repr

/-- The number of bits of `a` without leading zeros (`00_scope.md` R7). -/
def bitlen (a : Nat) : Nat := if a = 0 then 0 else Nat.log2 a + 1

/-- The reduction loop of R60: while the intermediate is as long as the modulus, xor the modulus aligned with its top
bit. `fuel` bounds the rounds; each round shortens `t`, so `bitlen t` rounds are enough. -/
def reduceByModulus : (fuel : Nat) → (t : Nat) → Nat
  | 0, t => t
  | fuel + 1, t =>
    if bitlen Config.modulus ≤ bitlen t then
      reduceByModulus fuel (t ^^^ Config.modulus <<< (bitlen t - bitlen Config.modulus))
    else t

/-- `times2(v)`, the field product of `v` and the generator 2 (R60). R60 states it for 1 to 255; the 0 that
the loop gives for 0 is the model's DESIGN CHOICE (log entry 21), and the construction never asks for it. -/
def times2 (v : Byte) : Byte := BitVec.ofNat 8 (reduceByModulus 16 (v.toNat <<< 1))

/-- The values `value` takes in `n` rounds of the loop of R59, the first round's value being `v`. -/
def loopValues : (n : Nat) → (v : Byte) → List Byte
  | 0, _ => []
  | n + 1, v => v :: loopValues n (times2 v)

/-- A round of the loop gives one value. -/
theorem loopValues_length (n : Nat) (v : Byte) : (loopValues n v).length = n := by
  induction n generalizing v <;> simp [loopValues, *]

/-- EXP as R59 leaves it: round `i` writes `value` at index `i` and at index `i + 255`, and the two guard entries 1 and
2 follow at 510 and 511 (R61). -/
def builtExp : Vector Byte 512 :=
  ⟨(loopValues 255 1 ++ loopValues 255 1 ++ [1, 2]).toArray, by simp [loopValues_length]⟩

/-- The round in which `value` is `x`, counting from round `k`. -/
def roundOf (x : Byte) : List Byte → (k : Nat) → Nat
  | [], k => k
  | v :: rest, k => if v = x then k else roundOf x rest (k + 1)

/-- LOG[x] as R59 leaves it: the round that wrote it; the 255 writes go to 255 distinct entries (R64).
Only nonzero `x` are asked for (R68; log entry 21). -/
def builtLogEntry (x : Byte) : Byte := BitVec.ofNat 8 (roundOf x (loopValues 255 1) 0)

/-- LOG as R59 leaves it, entries 1 to 255. -/
def builtLog : Vector Byte 255 :=
  ⟨((List.range 255).map fun k => builtLogEntry (BitVec.ofNat 8 (k + 1))).toArray, by simp⟩

/-- The tables after the construction (R59). -/
def builtTables : Tables := ⟨builtExp, builtLog⟩

/-- `EXP[i]`, the only read of EXP (`00_scope.md` R10). -/
def readExp (t : Tables) (i : Fin 512) : Byte := t.exp[i]

/-- A nonzero element is an index of LOG. -/
theorem log_index_lt {v : Byte} (h : v ≠ 0) : v.toNat - 1 < 255 := by
  have := v.isLt
  have : v.toNat ≠ 0 := fun h0 => h (BitVec.eq_of_toNat_eq h0)
  omega

/-- `LOG[v]`, the only read of LOG, as a natural; it cannot be written for `v = 0` (R68). -/
def readLog (t : Tables) (v : Byte) (h : v ≠ 0) : Nat := (t.log[v.toNat - 1]'(log_index_lt h)).toNat

/-- An entry of LOG is 8 bits wide. -/
theorem readLog_lt (t : Tables) (v : Byte) (h : v ≠ 0) : readLog t v h < 256 := BitVec.isLt _

end Sys2Proof.Machine
end

