-- ==== Sys2Proof/Machine/State.lean ====
section
/-! DEFINITION. The state of the machine as plain data (`10_state.md`), the fault causes, the host's operations and
answers, and the state right after reset (`10_state.md` R25, `70_reset_and_hazards.md` R126). -/

namespace Sys2Proof.Machine

/-- The five fault causes of `60_exceptions.md` R107. A raised cause is no stop of the model: its entry is described
(R113) and is a next state (log entry 5). -/
inductive Cause where
  /-- GFDIV by 0, GFINV of 0, GFPOW of 0 to the 0, LOGRD of 0 (R108). -/
  | divisionByZero
  /-- An empty polynomial source, or PDIVMOD with a longer divisor or a divisor of length 1 (R109). -/
  | invalidDegree
  /-- EXPRD with an index above 511 (R110). -/
  | indexOutOfRange
  /-- A word that is no legal command (R111). -/
  | illegalCommand
  /-- PMULT with a product longer than MAXLEN (R112). -/
  | capacityExceeded
  deriving DecidableEq, Repr

/-- The eight operations of the host port (`20_memory.md` R36 to R42). -/
inductive HostOp where
  | hostReset
  | hostIssue (w : Word32)
  | hostWriteS (i : SReg) (v : Byte)
  | hostReadS (i : SReg)
  | hostWriteP (k : PReg) (p : Poly)
  | hostReadP (k : PReg)
  | hostReadStatus
  | hostReadFCMD
  deriving DecidableEq, Repr

/-- What a performed host operation answered, the model's record (log entry 4). -/
inductive Reply where
  /-- The operation was admitted and returns nothing (HostReset, HostIssue, the writes). -/
  | accepted
  /-- The operation was refused: the core is halted, or the sequence is longer than MAXLEN (R37, R38, R40). -/
  | refused
  /-- What HostReadS returns (R39). -/
  | element (v : Byte)
  /-- What HostReadP returns (R41). -/
  | sequence (p : Poly)
  /-- What HostReadStatus and HostReadFCMD return (R42). -/
  | word (w : Word32)
  deriving DecidableEq, Repr

/-- The state. `sregs`, `pregs`, `tables`, `status` and `fcmd` are the core's (`10_state.md`); `resets`, `pending` and
`replies` are the model's own (log entries 2 to 4). -/
structure State where
  /-- The scalar registers `s0` to `s15` (R13). -/
  sregs : Vector Byte 16
  /-- The polynomial registers `p0` to `p15`, each the sequence it holds, LEN being its length (R14, R15). -/
  pregs : Vector Poly 16
  /-- EXP and LOG (R17). -/
  tables : Tables
  /-- STATUS (R19). -/
  status : Word32
  /-- FCMD (R20). -/
  fcmd : Word32
  /-- How many resets have been, the index the next reset draws at (`93_implementation_defined.md` U2). -/
  resets : Nat
  /-- The operations the host has yet to perform, oldest first (`70_reset_and_hazards.md` R131). -/
  pending : List HostOp
  /-- What the performed operations answered, oldest first. -/
  replies : List Reply
  deriving DecidableEq, Repr

/-- The faults that stop the model: none. No meaning and no port operation ends in a stop, because the spec describes
the entry of each of its faults, which is a next state (`60_exceptions.md` R113; log entry 5). Nobody raises one, which
is neither safe nor unsafe. -/
inductive Fault where
  deriving DecidableEq, Repr

/-- The refusals of the model. -/
inductive Refusal where
  /-- An arm of `exec` whose instruction has no meaning yet raises it, and no meaning does. Safe: the model stops where
  the hardware goes on. No arm raises it now. -/
  | notModelled (mnemonic : String)
  deriving DecidableEq, Repr

/-- The scalar registers after the `k`-th reset: one draw per register (R13, R25, U2; log entry 1). -/
def drawnScalars (k : Nat) : Vector Byte 16 := Vector.ofFn (Config.scalarDraw k)

/-- The machine right after reset (`10_state.md` R25, R126): scalar registers drawn, polynomial registers empty, tables
constructed, STATUS and FCMD zero; the host has performed nothing and has nothing pending. -/
def State.reset : State where
  sregs := drawnScalars 0
  pregs := Vector.replicate 16 []
  tables := builtTables
  status := 0
  fcmd := 0
  resets := 1
  pending := []
  replies := []

end Sys2Proof.Machine
end

