-- ==== Sys2Proof/Machine/Flags.lean ====
section
/-! DEFINITION. The only flag-like state, the fields of STATUS (`10_state.md` R19, R22), and the cause codes
(`60_exceptions.md` R107). No command computes a condition code: there are none (R22). -/

namespace Sys2Proof.Machine

/-- The cause codes (R107, R19). -/
def causeCode : Cause → Word32
  | .divisionByZero => 1
  | .invalidDegree => 2
  | .indexOutOfRange => 3
  | .illegalCommand => 4
  | .capacityExceeded => 5

/-- STATUS once cause `c` has halted the core: CAUSE in bits 3:1, HALTED in bit 0, bits 31:4 zero (R19). -/
def statusWord (c : Cause) : Word32 := causeCode c <<< 1 ||| 1

/-- STATUS.HALTED, bit 0 (R19). -/
def haltedField (status : Word32) : Bool := status.getLsbD 0

/-- STATUS.CAUSE, bits 3:1 (R19). -/
def causeField (status : Word32) : BitVec 3 := status.extractLsb' 1 3

end Sys2Proof.Machine
end

