-- ==== Sys2Proof/Machine/Ops.lean ====
section
/-! DEFINITION. The named operations over the registers and the status registers: reading and writing a register, entering
a fault (`60_exceptions.md` R113), completing a command, the effect of reset (the only way out of a fault, R116), and the
record of what a host operation answered. -/

namespace Sys2Proof.Machine

/-- `s[i]` (`10_state.md` R13). -/
def State.readS (s : State) (i : SReg) : Byte := s.sregs[i]

/-- `s[i] <- v` (R13). -/
def State.writeS (s : State) (i : SReg) (v : Byte) : State := { s with sregs := s.sregs.set i v }

/-- `P[k]`, the whole sequence (R14). -/
def State.readP (s : State) (k : PReg) : Poly := s.pregs[k]

/-- `P[k] <- p`: LEN and every coefficient below it (R14). -/
def State.writeP (s : State) (k : PReg) (p : Poly) : State := { s with pregs := s.pregs.set k p }

/-- HALTED = 1 (R19). -/
def State.halted (s : State) : Bool := haltedField s.status

/-- CAUSE (R19). -/
def State.cause (s : State) : BitVec 3 := causeField s.status

/-- Fault entry, the whole effect of a command that raises `c`: HALTED and CAUSE in STATUS, the command word in FCMD,
nothing else (`60_exceptions.md` R113). -/
def State.raise (s : State) (c : Cause) (w : Word32) : State := { s with status := statusWord c, fcmd := w }

/-- The end of a command with a scalar destination: the result is written, or the raised cause is entered and the
destination is left alone (R113). `w` is the command's own word. -/
def State.finishS (s : State) (w : Word32) (rd : SReg) : Except Cause Byte → State
  | .ok v => s.writeS rd v
  | .error c => s.raise c w

/-- The end of a command with a polynomial destination, as `finishS`. -/
def State.finishP (s : State) (w : Word32) (rd : PReg) : Except Cause Poly → State
  | .ok p => s.writeP rd p
  | .error c => s.raise c w

/-- HostReset's effect on the core: every piece of the core's state takes its reset value, the scalar registers by a new
draw (`70_reset_and_hazards.md` R126, `10_state.md` R25, R116). What the host has yet to do and what it has been
answered are the host's and stay (log entry 2). -/
def State.afterReset (s : State) : State where
  sregs := drawnScalars s.resets
  pregs := State.reset.pregs
  tables := State.reset.tables
  status := State.reset.status
  fcmd := State.reset.fcmd
  resets := s.resets + 1
  pending := s.pending
  replies := s.replies

/-- Records what a host operation answered (log entry 4). -/
def State.reply (s : State) (r : Reply) : State := { s with replies := s.replies ++ [r] }

end Sys2Proof.Machine
end

