-- ==== Sys2Proof/Machine/Operands.lean ====
section
/-! DEFINITION. The operands of the forms of `30_encoding.md` R47. A scalar source is read with `State.readS`; a
polynomial source must hold a polynomial (`42_poly_ops.md` R84), and this test comes before every other, RA's register
before RB's (`60_exceptions.md` R114). All sources are read from the state before the destination is written (R83). -/

namespace Sys2Proof.Machine

/-- One polynomial source: its sequence, or InvalidDegree when its LEN is 0 (R84). -/
def State.polySource (s : State) (k : PReg) : Except Cause Poly :=
  if (s.readP k).length = 0 then .error .invalidDegree else .ok (s.readP k)

/-- The two polynomial sources of form PPP, RA's and then RB's (R84, R114). -/
def State.polySources (s : State) (ra rb : PReg) : Except Cause (Poly × Poly) :=
  match s.polySource ra with
  | .error c => .error c
  | .ok p =>
    match s.polySource rb with
    | .error c => .error c
    | .ok q => .ok (p, q)

end Sys2Proof.Machine
end

