-- ==== Sys2Proof/Machine/Field.lean ====
section
/-! DEFINITION. The field functions and the five field commands (`41_field_ops.md`). A function that may raise a fault
answers the cause instead of an element. -/

namespace Sys2Proof.Machine

/-- `gf_add(x, y) = x xor y` (R71). -/
def gfAdd (x y : Byte) : Byte := x ^^^ y

/-- `gf_sub(x, y) = gf_add(x, y)` (R71). -/
def gfSub (x y : Byte) : Byte := gfAdd x y

/-- `gf_mul(x, y)`: 0 when an operand is 0, else `EXP[LOG[x] + LOG[y]]` (R73). -/
def gfMul (t : Tables) (x y : Byte) : Byte :=
  if hx : x = 0 then 0
  else if hy : y = 0 then 0
  else readExp t ⟨readLog t x hx + readLog t y hy, by
    have := readLog_lt t x hx
    have := readLog_lt t y hy
    omega⟩

/-- `gf_div(x, y)`: DivisionByZero when `y = 0`, tested first; 0 when `x = 0`; else
`EXP[(LOG[x] + 255 - LOG[y]) mod 255]` (R75). -/
def gfDiv (t : Tables) (x y : Byte) : Except Cause Byte :=
  if hy : y = 0 then .error .divisionByZero
  else if hx : x = 0 then .ok 0
  else .ok (readExp t ⟨(readLog t x hx + 255 - readLog t y hy) % Config.fieldOrder,
    Nat.lt_of_lt_of_le (Nat.mod_lt _ (by decide)) (by decide)⟩)

/-- `gf_inv(x)`: DivisionByZero when `x = 0`, else `EXP[255 - LOG[x]]` (R77). -/
def gfInv (t : Tables) (x : Byte) : Except Cause Byte :=
  if hx : x = 0 then .error .divisionByZero
  else .ok (readExp t ⟨255 - readLog t x hx, by omega⟩)

/-- `gf_pow(x, n)`: `EXP[(LOG[x] * n) mod 255]` when `x` is not 0; for `x = 0`, 0 when `n > 0` and DivisionByZero when
`n = 0` (R79). The product is exact. R79 states this for `n` up to 65535, the exponents a command can hold; that the
function goes on by the same formula above is the model's DESIGN CHOICE (log entry 20), and no command reaches it. -/
def gfPow (t : Tables) (x : Byte) (n : Nat) : Except Cause Byte :=
  if hx : x = 0 then (if n = 0 then .error .divisionByZero else .ok 0)
  else .ok (readExp t ⟨readLog t x hx * n % Config.fieldOrder,
    Nat.lt_of_lt_of_le (Nat.mod_lt _ (by decide)) (by decide)⟩)

/-- GFADD sd, sa, sb (R72). -/
def execGfadd (rd ra rb : SReg) (s : State) : Host.Outcome State Fault Refusal :=
  .next (s.finishS (encode (.gfadd rd ra rb)) rd (.ok (gfAdd (s.readS ra) (s.readS rb))))

/-- GFMUL sd, sa, sb (R74). -/
def execGfmul (rd ra rb : SReg) (s : State) : Host.Outcome State Fault Refusal :=
  .next (s.finishS (encode (.gfmul rd ra rb)) rd (.ok (gfMul s.tables (s.readS ra) (s.readS rb))))

/-- GFDIV sd, sa, sb (R76). -/
def execGfdiv (rd ra rb : SReg) (s : State) : Host.Outcome State Fault Refusal :=
  .next (s.finishS (encode (.gfdiv rd ra rb)) rd (gfDiv s.tables (s.readS ra) (s.readS rb)))

/-- GFINV sd, sa (R78). -/
def execGfinv (rd ra : SReg) (s : State) : Host.Outcome State Fault Refusal :=
  .next (s.finishS (encode (.gfinv rd ra)) rd (gfInv s.tables (s.readS ra)))

/-- GFPOW sd, sa, #n (R80). -/
def execGfpow (rd ra : SReg) (imm : Imm) (s : State) : Host.Outcome State Fault Refusal :=
  .next (s.finishS (encode (.gfpow rd ra imm)) rd (gfPow s.tables (s.readS ra) imm.toNat))

end Sys2Proof.Machine
end

