-- ==== Sys2Proof/Machine/Polynomial.lean ====
section
/-! DEFINITION. The polynomial functions and the five polynomial commands (`42_poly_ops.md`). The functions are stated by
index, as the rules write their loops; sequences stand lowest index first. -/

namespace Sys2Proof.Machine

/-- The loop of `norm` on the sequence read from its highest index down: while there is more than one element and the
first is 0, drop it; nothing at all becomes `[0]` (R82). -/
def normFromTop : Poly → Poly
  | [] => [0]
  | [c] => [c]
  | c :: d :: lower => if c = 0 then normFromTop (d :: lower) else c :: d :: lower

/-- `norm(s)`: drop zeros from the high-index end, down to one coefficient; `norm([]) = [0]` (R82). -/
def norm (p : Poly) : Poly := (normFromTop p.reverse).reverse

/-- How PMULT's and PDIVMOD's results are finished: not normalised. The choice of `90_conflicts.md` C3, D15 stands in
this one definition, as U20 asks (`42_poly_ops.md` R85; log entry 17). -/
def asStated (p : Poly) : Poly := p

/-- One round of Horner's method: `res <- gf_add(gf_mul(res, x), c)` (R86). -/
def hornerRound (t : Tables) (x res c : Byte) : Byte := gfAdd (gfMul t res x) c

/-- `poly_eval(p, x)`: Horner's method from the highest index down (R86). R86 defines it for `len(p) >= 1`;
the 0 on the empty sequence is the model's DESIGN CHOICE (log entry 21), and PEVAL, which raises InvalidDegree there, never
asks for it. -/
def polyEval (t : Tables) (p : Poly) (x : Byte) : Byte :=
  match p.reverse with
  | [] => 0
  | leading :: lower => lower.foldl (hornerRound t x) leading

/-- Coefficient `i`, absent indices contributing 0 (R88). -/
def coeff (p : Poly) (i : Nat) : Byte := p.getD i 0

/-- `poly_add(p, q)`: xor index by index over the longer length, then `norm` (R88). R88 states it for
`len(p), len(q) >= 1`; that an empty operand adds nothing (`norm` of the other, `[0]` for two empty ones) is the model's
DESIGN CHOICE (log entry 21), and PADD, which raises InvalidDegree there, never asks for it. -/
def polyAdd (p q : Poly) : Poly :=
  norm ((List.range (max p.length q.length)).map fun i => gfAdd (coeff p i) (coeff q i))

/-- `r[k] <- gf_add(r[k], v)`, for an index inside `r`; outside, which no rule forms, nothing changes (DESIGN CHOICE,
log entry 21). -/
def accumulate (r : Poly) (k : Nat) (v : Byte) : Poly := r.set k (gfAdd (coeff r k) v)

/-- The inner loop of R90 for one `i`: `r[i + j]` accumulates `gf_mul(p[i], q[j])` for every `j`. -/
def mulRow (t : Tables) (p q : Poly) (r : Poly) (i : Nat) : Poly :=
  (List.range q.length).foldl (fun r j => accumulate r (i + j) (gfMul t (coeff p i) (coeff q j))) r

/-- `poly_mul(p, q)`, the convolution: exactly `len(p) + len(q) - 1` coefficients (R90). R90 states it for
`len(p), len(q) >= 1`; what stands here for an empty operand is the model's DESIGN CHOICE (log entry 21), and PMULT, which
raises InvalidDegree there, never asks for it. -/
def polyMul (t : Tables) (p q : Poly) : Poly :=
  asStated ((List.range p.length).foldl (mulRow t p q) (List.replicate (p.length + q.length - 1) 0))

/-- One round of the outer loop of R92 at position `i`: with `c` the current content of `w[i]`, when it is not 0,
`w[i + j]` accumulates `gf_mul(q[j], c)` for every `j >= 1` with `q[j]` not 0; `w[i]` and `q[0]` are left alone. -/
def divRound (t : Tables) (q w : Poly) (i : Nat) : Poly :=
  if coeff w i = 0 then w
  else (List.range' 1 (q.length - 1)).foldl
    (fun w' j => if coeff q j = 0 then w' else accumulate w' (i + j) (gfMul t (coeff q j) (coeff w i))) w

/-- The working copy of R92 after its loop, positions 0 to `len(p) - len(q)` taken in order. -/
def divWorkingCopy (t : Tables) (p q : Poly) : Poly :=
  (List.range (p.length - q.length + 1)).foldl (divRound t q) p

/-- `poly_divrem(p, q)`: the last `len(q) - 1` positions of the working copy (R92). R92 states it for
`len(p) >= len(q) >= 2`; what stands here outside is the model's DESIGN CHOICE (log entry 21), and PDIVMOD, which raises
InvalidDegree there, never asks for it. -/
def polyDivrem (t : Tables) (p q : Poly) : Poly :=
  asStated ((divWorkingCopy t p q).drop (p.length - q.length + 1))

/-- `poly_deriv(p)`: `r[i] = p[i + 1]` when `i + 1` is odd, else 0, for `i` below `len(p) - 1`; then `norm` (R94).
R94 states it for `len(p) >= 1`; the `[0]` of the empty sequence is the model's DESIGN CHOICE (log entry 21), and PDERIV,
which raises InvalidDegree there, never asks for it. -/
def polyDeriv (p : Poly) : Poly :=
  norm ((List.range (p.length - 1)).map fun i => if (i + 1) % 2 = 1 then coeff p (i + 1) else 0)

/-- PMULT's own test and result on two nonempty sources (R91); asked on no others (log entry 21). -/
def pmultResult (t : Tables) (p q : Poly) : Except Cause Poly :=
  if p.length + q.length - 1 > Config.maxLen then .error .capacityExceeded else .ok (polyMul t p q)

/-- PDIVMOD's own tests, in the order R93 writes them, and its result on two nonempty sources; asked on no others
(log entry 21). -/
def pdivmodResult (t : Tables) (p q : Poly) : Except Cause Poly :=
  if q.length > p.length then .error .invalidDegree
  else if q.length = 1 then .error .invalidDegree
  else .ok (polyDivrem t p q)

/-- PEVAL sd, pa, sb (R87). -/
def execPeval (rd : SReg) (ra : PReg) (rb : SReg) (s : State) : Host.Outcome State Fault Refusal :=
  .next (s.finishS (encode (.peval rd ra rb)) rd
    (match s.polySource ra with
    | .error c => .error c
    | .ok p => .ok (polyEval s.tables p (s.readS rb))))

/-- PMULT pd, pa, pb (R91). -/
def execPmult (rd ra rb : PReg) (s : State) : Host.Outcome State Fault Refusal :=
  .next (s.finishP (encode (.pmult rd ra rb)) rd
    (match s.polySources ra rb with
    | .error c => .error c
    | .ok (p, q) => pmultResult s.tables p q))

/-- PDIVMOD pd, pa, pb (R93). -/
def execPdivmod (rd ra rb : PReg) (s : State) : Host.Outcome State Fault Refusal :=
  .next (s.finishP (encode (.pdivmod rd ra rb)) rd
    (match s.polySources ra rb with
    | .error c => .error c
    | .ok (p, q) => pdivmodResult s.tables p q))

/-- PADD pd, pa, pb (R89). -/
def execPadd (rd ra rb : PReg) (s : State) : Host.Outcome State Fault Refusal :=
  .next (s.finishP (encode (.padd rd ra rb)) rd
    (match s.polySources ra rb with
    | .error c => .error c
    | .ok (p, q) => .ok (polyAdd p q)))

/-- PDERIV pd, pa (R95). -/
def execPderiv (rd ra : PReg) (s : State) : Host.Outcome State Fault Refusal :=
  .next (s.finishP (encode (.pderiv rd ra)) rd
    (match s.polySource ra with
    | .error c => .error c
    | .ok p => .ok (polyDeriv p)))

end Sys2Proof.Machine
end

