-- ==== Sys2Proof/Machine/TableReads.lean ====
section
/-! DEFINITION. The two commands that read the tables (`40_tables.md` R69, R70). -/

namespace Sys2Proof.Machine

/-- What EXPRD reads: `EXP[i]`, or IndexOutOfRange when `i > 511` (R69). -/
def expEntry (t : Tables) (i : Nat) : Except Cause Byte :=
  if h : i < Config.expSize then .ok (readExp t ⟨i, h⟩) else .error .indexOutOfRange

/-- What LOGRD reads: `LOG[x]` as an 8-bit value, or DivisionByZero when `x = 0` (R70). -/
def logEntry (t : Tables) (x : Byte) : Except Cause Byte :=
  if hx : x = 0 then .error .divisionByZero else .ok (BitVec.ofNat 8 (readLog t x hx))

/-- EXPRD sd, #i (R69). -/
def execExprd (rd : SReg) (imm : Imm) (s : State) : Host.Outcome State Fault Refusal :=
  .next (s.finishS (encode (.exprd rd imm)) rd (expEntry s.tables imm.toNat))

/-- LOGRD sd, sa (R70). -/
def execLogrd (rd ra : SReg) (s : State) : Host.Outcome State Fault Refusal :=
  .next (s.finishS (encode (.logrd rd ra)) rd (logEntry s.tables (s.readS ra)))

end Sys2Proof.Machine
end

