-- ==== Sys2Proof/Machine/Dispatch.lean ====
section
/-! DEFINITION. The effect of a command: one arm per constructor of Instr, each one direct call of its meaning. Whether a
command is admitted at all (HALTED = 0) is the port's question, asked before it is executed (Port.lean, R37). -/

namespace Sys2Proof.Machine

def exec (i : Instr) (s : State) : Host.Outcome State Fault Refusal :=
  match i with
  | .exprd rd imm => Sys2Proof.Machine.execExprd rd imm s
  | .logrd rd ra => Sys2Proof.Machine.execLogrd rd ra s
  | .gfadd rd ra rb => Sys2Proof.Machine.execGfadd rd ra rb s
  | .gfmul rd ra rb => Sys2Proof.Machine.execGfmul rd ra rb s
  | .gfdiv rd ra rb => Sys2Proof.Machine.execGfdiv rd ra rb s
  | .gfinv rd ra => Sys2Proof.Machine.execGfinv rd ra s
  | .gfpow rd ra imm => Sys2Proof.Machine.execGfpow rd ra imm s
  | .peval rd ra rb => Sys2Proof.Machine.execPeval rd ra rb s
  | .pmult rd ra rb => Sys2Proof.Machine.execPmult rd ra rb s
  | .pdivmod rd ra rb => Sys2Proof.Machine.execPdivmod rd ra rb s
  | .padd rd ra rb => Sys2Proof.Machine.execPadd rd ra rb s
  | .pderiv rd ra => Sys2Proof.Machine.execPderiv rd ra s

end Sys2Proof.Machine
end

