-- ==== Sys2Proof/Machine/Port.lean ====
section
/-! DEFINITION. The eight operations of the host port with their admission (`20_memory.md` R36 to R42), and the step of
the machine: the host performs the oldest operation it has yet to perform. An operation that is refused changes nothing
and is recorded as refused (U19; log entry 4). -/

namespace Sys2Proof.Machine

/-- HostIssue(w): admitted only when HALTED = 0; the core decodes `w` and executes the command it spells, or raises
IllegalCommand when it spells none (R37, `30_encoding.md` R54, `60_exceptions.md` R111). -/
def hostIssue (w : Word32) (s : State) : Host.Outcome State Fault Refusal :=
  if s.halted then .next (s.reply .refused)
  else
    match decode w with
    | .ok i => exec i (s.reply .accepted)
    | .error _ => .next ((s.reply .accepted).raise .illegalCommand w)

/-- HostWriteS(i, v): admitted only when HALTED = 0 (R38). -/
def hostWriteS (i : SReg) (v : Byte) (s : State) : State :=
  if s.halted then s.reply .refused else (s.writeS i v).reply .accepted

/-- HostReadS(i): admitted in every state (R39). -/
def hostReadS (i : SReg) (s : State) : State := s.reply (.element (s.readS i))

/-- HostWriteP(k, seq): admitted only when HALTED = 0; a sequence longer than MAXLEN is refused; the sequence is taken
as given, the empty one too (R40, U15). -/
def hostWriteP (k : PReg) (p : Poly) (s : State) : State :=
  if s.halted then s.reply .refused
  else if p.length > Config.maxLen then s.reply .refused
  else (s.writeP k p).reply .accepted

/-- HostReadP(k): admitted in every state (R41). -/
def hostReadP (k : PReg) (s : State) : State := s.reply (.sequence (s.readP k))

/-- HostReadStatus: admitted in every state (R42). -/
def hostReadStatus (s : State) : State := s.reply (.word s.status)

/-- HostReadFCMD: admitted in every state (R42). -/
def hostReadFCMD (s : State) : State := s.reply (.word s.fcmd)

/-- HostReset: admitted in every state (R36, `70_reset_and_hazards.md` R126). -/
def hostReset (s : State) : State := s.afterReset.reply .accepted

/-- One host operation performed. -/
def perform (op : HostOp) (s : State) : Host.Outcome State Fault Refusal :=
  match op with
  | .hostReset => .next (hostReset s)
  | .hostIssue w => hostIssue w s
  | .hostWriteS i v => .next (hostWriteS i v s)
  | .hostReadS i => .next (hostReadS i s)
  | .hostWriteP k p => .next (hostWriteP k p s)
  | .hostReadP k => .next (hostReadP k s)
  | .hostReadStatus => .next (hostReadStatus s)
  | .hostReadFCMD => .next (hostReadFCMD s)

/-- The step: the oldest pending operation is taken and performed (R43); when the host has none, the core idles and
nothing changes (`60_exceptions.md` R119; log entry 3). -/
def performNext (s : State) : Host.Outcome State Fault Refusal :=
  match s.pending with
  | [] => .next s
  | op :: rest => perform op { s with pending := rest }

/-- `s` with a HostIssue of the word of `nbits` bits `w` as the host's next operation (log entry 3). -/
def withIssue (s : State) (nbits w : Nat) : State :=
  { s with pending := .hostIssue (BitVec.ofNat 32 (w % 2 ^ nbits)) :: s.pending }

end Sys2Proof.Machine
end

