-- ==== Sys2Proof/Machine/Step.lean ====
section
/-! DEFINITION. The step of the machine and the placing of a command where the next step takes it from. -/

namespace Sys2Proof.Machine

/-- One step: the host's next operation is performed (Port.lean). -/
def step (s : State) : Host.Outcome State Fault Refusal := performNext s

/-- `s` in which the very next step issues the command word `w` (there is no fetch, `10_state.md` R18; log entry 3). -/
def State.withFetchWord (s : State) (nbits w : Nat) : State := withIssue s nbits w

end Sys2Proof.Machine
end

