-- ==== Sys2Proof/Machine/AuxFunctions.lean ====
section
/-! DEFINITION. The document's other functions (`43_aux_functions.md`): pure functions of sequences, with no command and no
opcode (`00_scope.md` R4). -/

namespace Sys2Proof.Machine

/-- `sub(x, y)` (R96). -/
def fieldSub (x y : Byte) : Byte := gfSub x y

/-- `scal(p, alpha)`: every coefficient times `alpha`, not normalised (R97). R97 states it for `len(p) >= 1`; its answer
on the empty sequence is the model's DESIGN CHOICE (log entry 21). -/
def scal (t : Tables) (p : Poly) (alpha : Byte) : Poly := p.map fun c => gfMul t c alpha

/-- `strip(p)`: `norm(p)`; as an operation of its own it raises InvalidDegree on the empty sequence (R98). -/
def strip (p : Poly) : Except Cause Poly := if p.length = 0 then .error .invalidDegree else .ok (norm p)

/-- `reverse(p)`: from the highest index holding a nonzero coefficient down to index 0. A sequence with no nonzero
coefficient has no value (R99, U7; log entry 18). -/
def reversePoly (p : Poly) : Option Poly :=
  match p.reverse.dropWhile (· == 0) with
  | [] => none
  | c :: lower => some (c :: lower)

/-- `shift(p)`: one zero coefficient in front (R100). R100 states it for `len(p) >= 1`; its answer on the empty
sequence is the model's DESIGN CHOICE (log entry 21). -/
def shiftPoly (p : Poly) : Poly := 0 :: p

/-- `copy(p)` (R101). -/
def copyPoly (p : Poly) : Poly := p

/-- `generator^e` for a natural `e`: `EXP[e mod 255]` (R102). -/
def generatorPower (t : Tables) (e : Nat) : Byte :=
  readExp t ⟨e % Config.fieldOrder, Nat.lt_of_lt_of_le (Nat.mod_lt _ (by decide)) (by decide)⟩

/-- The factor `1 + (generator^e) X` (R102, R103). -/
def rootFactor (t : Tables) (e : Nat) : Poly := [1, generatorPower t e]

/-- `createErasurePoly(positions)`: the product of the factors of its positions, from `[1]` (R103). -/
def createErasurePoly (t : Tables) (positions : List Nat) : Poly :=
  positions.foldl (fun g e => polyMul t g (rootFactor t e)) [1]

/-- `createGenPoly(N)`: the product of the factors of 0 to N - 1, from `[1]` (R102). -/
def createGenPoly (t : Tables) (n : Nat) : Poly :=
  (List.range n).foldl (fun g i => polyMul t g (rootFactor t i)) [1]

end Sys2Proof.Machine
end

