-- ==== Sys2Proof/Safety.lean ====
section
/-! DEFINITION. The terms claims are stated in: the good end state, the invariant of the machine, what a command leaves
unchanged, and arithmetic of the field written without the tables, to hold the tables and the field functions to. -/

namespace Sys2Proof.Machine

/-! ### Good states and the invariant -/

/-- A good end state: HALTED = 0 (`70_reset_and_hazards.md` R131, `60_exceptions.md` R116). -/
def State.Good (s : State) : Prop := s.halted = false

/-- The causes a legal command can raise, by the command alone (`60_exceptions.md` R107 to R110, R112). -/
def causesOf : Instr → List Cause
  | .exprd _ imm => if 511 < imm.toNat then [.indexOutOfRange] else []
  | .logrd _ _ => [.divisionByZero]
  | .gfadd _ _ _ => []
  | .gfmul _ _ _ => []
  | .gfdiv _ _ _ => [.divisionByZero]
  | .gfinv _ _ => [.divisionByZero]
  | .gfpow _ _ imm => if imm.toNat = 0 then [.divisionByZero] else []
  | .peval _ _ _ => [.invalidDegree]
  | .pmult _ _ _ => [.invalidDegree, .capacityExceeded]
  | .pdivmod _ _ _ => [.invalidDegree]
  | .padd _ _ _ => [.invalidDegree]
  | .pderiv _ _ => [.invalidDegree]

/-- The command word `w` can have raised cause `c` (R107, R111). -/
def MayRaise (c : Cause) (w : Word32) : Prop :=
  match decode w with
  | .ok i => c ∈ causesOf i
  | .error _ => c = .illegalCommand

/-- STATUS and FCMD are both zero, or STATUS records a cause (CAUSE not 0, HALTED 1, bits 31:4 zero) that the word in
FCMD can have raised (`10_state.md` R19, R20, R24). -/
def State.RecordLegal (s : State) : Prop :=
  (s.status = 0 ∧ s.fcmd = 0) ∨ ∃ c, s.status = statusWord c ∧ MayRaise c s.fcmd

/-- EXP and LOG hold the constructed contents (R17, R24). -/
def State.TablesBuilt (s : State) : Prop := s.tables = builtTables

/-- Every polynomial register holds at most MAXLEN coefficients (R14, R24). -/
def State.PolysFit (s : State) : Prop := ∀ k, (s.readP k).length ≤ Config.maxLen

/-- The invariant of the state (`10_state.md` R24). -/
structure State.Inv (s : State) : Prop where
  tables : s.TablesBuilt
  polys : s.PolysFit
  record : s.RecordLegal

/-! ### Frames -/

/-- The scalar register a command names as its destination (`30_encoding.md` R47). -/
def scalarDest : Instr → Option SReg
  | .exprd rd _ => some rd
  | .logrd rd _ => some rd
  | .gfadd rd _ _ => some rd
  | .gfmul rd _ _ => some rd
  | .gfdiv rd _ _ => some rd
  | .gfinv rd _ => some rd
  | .gfpow rd _ _ => some rd
  | .peval rd _ _ => some rd
  | .pmult _ _ _ => none
  | .pdivmod _ _ _ => none
  | .padd _ _ _ => none
  | .pderiv _ _ => none

/-- The polynomial register a command names as its destination (R47). -/
def polyDest : Instr → Option PReg
  | .exprd _ _ => none
  | .logrd _ _ => none
  | .gfadd _ _ _ => none
  | .gfmul _ _ _ => none
  | .gfdiv _ _ _ => none
  | .gfinv _ _ => none
  | .gfpow _ _ _ => none
  | .peval _ _ _ => none
  | .pmult rd _ _ => some rd
  | .pdivmod rd _ _ => some rd
  | .padd rd _ _ => some rd
  | .pderiv rd _ => some rd

/-- Two states hold the same in every register the command reads and in the tables (R47). -/
def SourcesAgree : Instr → State → State → Prop
  | .exprd _ _, s, u => s.tables = u.tables
  | .logrd _ ra, s, u => s.tables = u.tables ∧ s.readS ra = u.readS ra
  | .gfadd _ ra rb, s, u => s.readS ra = u.readS ra ∧ s.readS rb = u.readS rb
  | .gfmul _ ra rb, s, u => s.tables = u.tables ∧ s.readS ra = u.readS ra ∧ s.readS rb = u.readS rb
  | .gfdiv _ ra rb, s, u => s.tables = u.tables ∧ s.readS ra = u.readS ra ∧ s.readS rb = u.readS rb
  | .gfinv _ ra, s, u => s.tables = u.tables ∧ s.readS ra = u.readS ra
  | .gfpow _ ra _, s, u => s.tables = u.tables ∧ s.readS ra = u.readS ra
  | .peval _ ra rb, s, u => s.tables = u.tables ∧ s.readP ra = u.readP ra ∧ s.readS rb = u.readS rb
  | .pmult _ ra rb, s, u => s.tables = u.tables ∧ s.readP ra = u.readP ra ∧ s.readP rb = u.readP rb
  | .pdivmod _ ra rb, s, u => s.tables = u.tables ∧ s.readP ra = u.readP ra ∧ s.readP rb = u.readP rb
  | .padd _ ra rb, s, u => s.readP ra = u.readP ra ∧ s.readP rb = u.readP rb
  | .pderiv _ ra, s, u => s.readP ra = u.readP ra

/-- Every register and both tables are the same in `t` as in `s`. -/
def SameData (s t : State) : Prop :=
  (∀ k, t.readS k = s.readS k) ∧ (∀ k, t.readP k = s.readP k) ∧ t.tables = s.tables

/-- STATUS and FCMD are the same in `t` as in `s`. -/
def SameRecord (s t : State) : Prop := t.status = s.status ∧ t.fcmd = s.fcmd

/-- The model's own fields are the same in `t` as in `s`. -/
def SameHostSide (s t : State) : Prop :=
  t.resets = s.resets ∧ t.pending = s.pending ∧ t.replies = s.replies

/-- `t` is `s` but for scalar register `rd`, which holds `v`. -/
def WritesOnlyS (s t : State) (rd : SReg) (v : Byte) : Prop :=
  t.readS rd = v ∧ (∀ k, k ≠ rd → t.readS k = s.readS k) ∧ (∀ k, t.readP k = s.readP k) ∧ t.tables = s.tables ∧
    SameRecord s t ∧ SameHostSide s t

/-- `t` is `s` but for polynomial register `rd`, which holds `p`. -/
def WritesOnlyP (s t : State) (rd : PReg) (p : Poly) : Prop :=
  t.readP rd = p ∧ (∀ k, k ≠ rd → t.readP k = s.readP k) ∧ (∀ k, t.readS k = s.readS k) ∧ t.tables = s.tables ∧
    SameRecord s t ∧ SameHostSide s t

/-- `t` is `s` with the fault `c` of the word `w` entered and nothing else changed (`60_exceptions.md` R113). -/
def FaultEntered (s t : State) (c : Cause) (w : Word32) : Prop :=
  t.status = statusWord c ∧ t.fcmd = w ∧ SameData s t ∧ SameHostSide s t

/-! ### Command words by their bits -/

/-- OP, RD, RA, RB and IMM as slices of the word (`30_encoding.md` R46), the reading the decoder is held to. -/
def opBits (w : Word32) : BitVec 4 := w.extractLsb' 28 4

/-- Bits 27:24 as a register number. -/
def rdBits (w : Word32) : Fin 16 := (w.extractLsb' 24 4).toFin

/-- Bits 23:20 as a register number. -/
def raBits (w : Word32) : Fin 16 := (w.extractLsb' 20 4).toFin

/-- Bits 19:16 as a register number. -/
def rbBits (w : Word32) : Fin 16 := (w.extractLsb' 16 4).toFin

/-- Bits 15:0. -/
def immBits (w : Word32) : Imm := w.extractLsb' 0 16

/-- Every word with opcode `op` decodes to `mk` of it when its must-be-zero fields are zero, and is rejected for them when
they are not (R47, R50). -/
def SpelledAs (op : BitVec 4) (zero : Word32 → Prop) (mk : Word32 → Instr) : Prop :=
  ∀ w, opBits w = op → (zero w → decode w = .ok (mk w)) ∧ (¬ zero w → decode w = .error .mustBeZero)

/-! ### What a performed host operation leaves -/

/-- The host's side after an operation that answered `r`: it is taken off the list and its answer recorded. -/
def Performed (s t : State) (rest : List HostOp) (r : Reply) : Prop :=
  t.resets = s.resets ∧ t.pending = rest ∧ t.replies = s.replies ++ [r]

/-! ### The field without the tables -/

/-- The product of `v` by the field's indeterminate: shift left, and xor with the modulus when bit 7 falls out. -/
def mulByX (v : Byte) : Byte := v <<< 1 ^^^ (if v.getLsbD 7 then 0x1D else 0)

/-- Shift-and-xor multiplication modulo 0x11D (`41_field_ops.md` R73): the sum of `x` times the powers of the
indeterminate at which `y` has a 1. -/
def shiftXorMul (x y : Byte) : Byte :=
  (List.range 8).foldl (fun acc i => if y.getLsbD i then acc ^^^ mulByX^[i] x else acc) 0

/-- The generator (the indeterminate, R6) to the power `i`. -/
def generatorTo (i : Nat) : Byte := mulByX^[i] 1

/-- `x` multiplied by itself `n` times, 1 when `n = 0`. -/
def repeatedProduct (t : Tables) (x : Byte) (n : Nat) : Byte := (gfMul t x)^[n] 1

/-! ### Polynomials by their coefficients -/

/-- The last coefficient is nonzero unless the polynomial is `[0]` (`42_poly_ops.md` R82). -/
def Normalised (p : Poly) : Prop := p ≠ [] ∧ (p.getLast? = some 0 → p = [0])

/-- The xor of `f 0` to `f (n - 1)`. -/
def xorSum (n : Nat) (f : Nat → Byte) : Byte := (List.range n).foldl (fun acc i => acc ^^^ f i) 0

/-- Coefficient `k` of the product of `p` and `q`: the xor of `p[i] * q[k - i]` over `i` up to `k`. -/
def convolution (t : Tables) (p q : Poly) (k : Nat) : Byte :=
  xorSum (k + 1) fun i => gfMul t (coeff p i) (coeff q (k - i))

end Sys2Proof.Machine
end

