-- ==== Sys2Proof/Certificates/Slice0/Obligations.lean ====
section
/-! DEFINITION. The statements for the provers, in the order of OBLIGATIONS.json. Each names the rule of spec/ it
formalises; where one rests on a choice of the model its docstring names the log entry. -/

open Sys2Proof Sys2Proof.Machine

/-! ### Encoding -/

/-- Words written out in the spec decode to the commands they stand for, one per operand form (`30_encoding.md` R52; the
LOGRD word `95_test_vectors.md` 2.1 and `40_tables.md` R70), and illegal words to none (`95_test_vectors.md` 2.4). -/
def Obligations.SpecWordsDecode : Prop :=
  decode 0x10000019 = .ok (.exprd 0 25) ∧ decode 0x20100000 = .ok (.logrd 0 1) ∧
  decode 0x42010000 = .ok (.gfmul 2 0 1) ∧ decode 0x71000008 = .ok (.gfpow 1 0 8) ∧
  decode 0x83120000 = .ok (.peval 3 1 2) ∧ decode 0x91120000 = .ok (.pmult 1 1 2) ∧
  decode 0xC4700000 = .ok (.pderiv 4 7) ∧ decode 0x00000000 = .error .reservedOpcode ∧
  decode 0x30000001 = .error .mustBeZero

/-- R46, R50, R54: decoding the word of a command gives the command, every operand at every value. -/
def Obligations.DecodeEncodeRoundTrip : Prop := ∀ i : Instr, decode (encode i) = .ok i

/-- R46, R50: a legal word is the word of the command it decodes to, so that recording a command's word in FCMD records
the whole word that was issued (log entry 7). -/
def Obligations.EncodeDecodeWholeWord : Prop := ∀ (w : Word32) (i : Instr), decode w = .ok i → encode i = w

/-- R48, R50: a word decodes exactly when it satisfies mask and match of a row, and then of exactly one row; and it fails
to exactly by a reserved opcode or a must-be-zero field that is not zero. -/
def Obligations.LegalWordsMatchOneRow : Prop :=
  ∀ w : Word32,
    ((∃ i, decode w = .ok i) ↔ wellFormedWord w = true) ∧
    (wellFormedWord w = true → ∃ r ∈ opcodeMap, r.spells w = true ∧ ∀ r' ∈ opcodeMap, r'.spells w = true → r' = r) ∧
    (decode w = .error .reservedOpcode ↔ opBits w = 0x0 ∨ opBits w = 0xD ∨ opBits w = 0xE ∨ opBits w = 0xF)

/-! ### The port and the step -/

/-- R37 (and R54): a HostIssue on a core that is not halted executes the decoded command, entirely, in that step, or, when
the word spells none, raises IllegalCommand; on a halted core it is refused and nothing changes. Taking the operation off the host's list and recording an answer
is the model's choice (log entries 3 and 4). -/
def Obligations.StepIssuesDecodedCommand : Prop :=
  ∀ (s : State) (w : Word32) (rest : List HostOp), s.pending = .hostIssue w :: rest →
    (s.halted = false → ∀ i, decode w = .ok i →
      step s = exec i { s with pending := rest, replies := s.replies ++ [.accepted] }) ∧
    (s.halted = false → ∀ e, decode w = .error e →
      ∃ t, step s = .next t ∧ FaultEntered { s with pending := rest, replies := s.replies ++ [.accepted] } t
        .illegalCommand w) ∧
    (s.halted = true →
      ∃ t, step s = .next t ∧ SameData s t ∧ SameRecord s t ∧ Performed s t rest .refused)

/-- R111, R113: IllegalCommand is raised by issuing a word that is not legal, and only the fault entry happens. What
becomes of the host's list, its answers and the count of resets is the model's choice (log entries 2 to 4). -/
def Obligations.IllegalWordRaisesIllegalCommand : Prop :=
  ∀ (s : State) (w : Word32) (rest : List HostOp), s.pending = .hostIssue w :: rest → s.halted = false →
    wellFormedWord w = false →
    ∃ t, step s = .next t ∧ t.status = 0x00000009 ∧ t.fcmd = w ∧ SameData s t ∧ Performed s t rest .accepted

/-- R38. Taking the operation off the host's list and recording that it was accepted or refused, and that the count of
resets stays, is the model's choice (log entries 2 to 4); the spec does not say that a host is told. -/
def Obligations.HostWriteSWritesOneRegister : Prop :=
  ∀ (s : State) (i : SReg) (v : Byte) (rest : List HostOp), s.pending = .hostWriteS i v :: rest →
    (s.halted = false → ∃ t, step s = .next t ∧ t.readS i = v ∧ (∀ k, k ≠ i → t.readS k = s.readS k) ∧
      (∀ k, t.readP k = s.readP k) ∧ t.tables = s.tables ∧ SameRecord s t ∧ Performed s t rest .accepted) ∧
    (s.halted = true → ∃ t, step s = .next t ∧ SameData s t ∧ SameRecord s t ∧ Performed s t rest .refused)

/-- R40: the sequence is taken as given, the empty one too; a sequence longer than MAXLEN is refused. Taking the operation
off the host's list and recording that it was accepted or refused, and that the count of resets stays, is the model's
choice (log entries 2 to 4). -/
def Obligations.HostWritePWritesOneRegister : Prop :=
  ∀ (s : State) (k : PReg) (p : Poly) (rest : List HostOp), s.pending = .hostWriteP k p :: rest →
    (s.halted = false → p.length ≤ Config.maxLen → ∃ t, step s = .next t ∧ t.readP k = p ∧
      (∀ j, j ≠ k → t.readP j = s.readP j) ∧ (∀ j, t.readS j = s.readS j) ∧ t.tables = s.tables ∧ SameRecord s t ∧
      Performed s t rest .accepted) ∧
    (s.halted = true ∨ Config.maxLen < p.length →
      ∃ t, step s = .next t ∧ SameData s t ∧ SameRecord s t ∧ Performed s t rest .refused)

/-- R39, R41, R42: the reads are admitted in every state, answer the register, and change nothing. That the answer is
appended to the record of answers and the operation leaves the host's list, and that the count of resets stays, is the
model's choice (log entries 2 to 4). -/
def Obligations.HostReadsAnswerAndChangeNothing : Prop :=
  ∀ (s : State) (rest : List HostOp),
    (∀ i, s.pending = .hostReadS i :: rest →
      ∃ t, step s = .next t ∧ SameData s t ∧ SameRecord s t ∧ Performed s t rest (.element (s.readS i))) ∧
    (∀ k, s.pending = .hostReadP k :: rest →
      ∃ t, step s = .next t ∧ SameData s t ∧ SameRecord s t ∧ Performed s t rest (.sequence (s.readP k))) ∧
    (s.pending = .hostReadStatus :: rest →
      ∃ t, step s = .next t ∧ SameData s t ∧ SameRecord s t ∧ Performed s t rest (.word s.status)) ∧
    (s.pending = .hostReadFCMD :: rest →
      ∃ t, step s = .next t ∧ SameData s t ∧ SameRecord s t ∧ Performed s t rest (.word s.fcmd))

/-- R36, R126, R25: HostReset is admitted in every state and gives every piece of state its reset value; of the scalar
registers nothing is said, their content being a free value (log entry 1). That the host's list and answers outlast the
reset is the model's choice (log entry 2), and so are taking the operation off the list and recording its acceptance
(log entries 3 and 4). -/
def Obligations.HostResetGivesResetValues : Prop :=
  ∀ (s : State) (rest : List HostOp), s.pending = .hostReset :: rest →
    ∃ t, step s = .next t ∧ (∀ k, t.readP k = []) ∧ t.tables = builtTables ∧ t.status = 0 ∧ t.fcmd = 0 ∧
      t.halted = false ∧ t.pending = rest ∧ t.replies = s.replies ++ [.accepted]

/-- R25: the machine right after reset, every value the spec gives. -/
def Obligations.ResetStateHoldsResetValues : Prop :=
  (∀ k, State.reset.readP k = []) ∧ State.reset.status = 0x00000000 ∧ State.reset.fcmd = 0x00000000 ∧
  State.reset.halted = false ∧ State.reset.cause = 0 ∧
  (∀ i : Fin 512, readExp State.reset.tables i = generatorTo (i.val % 255)) ∧
  (∀ (v : Byte) (h : v ≠ 0), readLog State.reset.tables v h ≤ 254 ∧
    generatorTo (readLog State.reset.tables v h) = v)

/-! ### The tables -/

/-- R59: the loop of the construction, round by round, the two guard writes, and what the loop leaves in `value`. -/
def Obligations.ConstructionLoopFillsTables : Prop :=
  (∀ (i : Nat) (h : i < 255),
    readExp builtTables ⟨i, by omega⟩ = times2^[i] 1 ∧ readExp builtTables ⟨i + 255, by omega⟩ = times2^[i] 1 ∧
    ∃ hv : times2^[i] 1 ≠ 0, readLog builtTables (times2^[i] 1) hv = i) ∧
  readExp builtTables 510 = 1 ∧ readExp builtTables 511 = 2 ∧ times2^[255] 1 = 1 ∧
  (∀ i j : Fin 255, times2^[i.val] 1 = times2^[j.val] (1 : Byte) → i = j)

/-- R60: the whole step of times2 in numbers, and its result. -/
def Obligations.TimesTwoShiftsAndReduces : Prop :=
  ∀ v : Byte, v ≠ 0 →
    (times2 v).toNat = (if 256 ≤ 2 * v.toNat then (2 * v.toNat) ^^^ 0x11D else 2 * v.toNat) ∧
    1 ≤ (times2 v).toNat ∧ (times2 v).toNat ≤ 255

/-- R62: every entry of EXP is the generator to its index, with period 255. -/
def Obligations.ExpHoldsGeneratorPowers : Prop :=
  (∀ i : Fin 512, readExp builtTables i = generatorTo i.val ∧
    readExp builtTables i = readExp builtTables ⟨i.val % 255, by omega⟩) ∧
  readExp builtTables 0 = 1 ∧ readExp builtTables 255 = 1 ∧ readExp builtTables 510 = 1 ∧
  readExp builtTables 1 = 2 ∧ readExp builtTables 256 = 2 ∧ readExp builtTables 511 = 2

/-- R64 (a) to (e), with `90_conflicts.md` C1 for (c). -/
def Obligations.TablesAreInverse : Prop :=
  (∀ x : Byte, x ≠ 0 → ∃ i : Fin 512, i.val < 255 ∧ readExp builtTables i = x ∧
    ∀ j : Fin 512, j.val < 255 → readExp builtTables j = x → j = i) ∧
  (∀ (x : Byte) (h : x ≠ 0), ∀ hl : readLog builtTables x h < 512, readExp builtTables ⟨readLog builtTables x h, hl⟩ = x) ∧
  (∀ i : Fin 512, i.val < 255 → ∀ h : readExp builtTables i ≠ 0, readLog builtTables (readExp builtTables i) h = i.val) ∧
  (∀ i : Fin 512, readExp builtTables i ≠ 0) ∧
  readLog builtTables 1 (by decide) = 0 ∧ readLog builtTables 2 (by decide) = 1 ∧
  (∀ (x : Byte) (h : x ≠ 0), readLog builtTables x h ≤ 254)

/-! ### The commands -/

/-- R69: EXPRD, with the contents of R62 where the tables are as constructed. -/
def Obligations.ExprdReadsExpEntry : Prop :=
  SpelledAs 0x1 (fun w => raBits w = 0 ∧ rbBits w = 0) (fun w => .exprd (rdBits w) (immBits w)) ∧
  ∀ (rd : SReg) (imm : Imm) (s : State),
    (∀ h : imm.toNat < 512, ∃ t, exec (.exprd rd imm) s = .next t ∧ WritesOnlyS s t rd (readExp s.tables ⟨imm.toNat, h⟩) ∧
      (s.TablesBuilt → t.readS rd = generatorTo imm.toNat ∧ t.readS rd ≠ 0)) ∧
    (511 < imm.toNat → ∃ t, exec (.exprd rd imm) s = .next t ∧
      FaultEntered s t .indexOutOfRange (encode (.exprd rd imm)))

/-- R70: LOGRD; where the tables are as constructed, the result is the logarithm to the base 2. -/
def Obligations.LogrdReadsLogEntry : Prop :=
  SpelledAs 0x2 (fun w => rbBits w = 0 ∧ immBits w = 0) (fun w => .logrd (rdBits w) (raBits w)) ∧
  ∀ (rd ra : SReg) (s : State),
    (s.readS ra = 0 → ∃ t, exec (.logrd rd ra) s = .next t ∧ FaultEntered s t .divisionByZero (encode (.logrd rd ra))) ∧
    (∀ h : s.readS ra ≠ 0, ∃ t v, exec (.logrd rd ra) s = .next t ∧ WritesOnlyS s t rd v ∧
      v.toNat = readLog s.tables (s.readS ra) h ∧ (s.TablesBuilt → v.toNat ≤ 254 ∧ generatorTo v.toNat = s.readS ra))

/-- R72: GFADD. -/
def Obligations.GfaddWritesXor : Prop :=
  SpelledAs 0x3 (fun w => immBits w = 0) (fun w => .gfadd (rdBits w) (raBits w) (rbBits w)) ∧
  ∀ (rd ra rb : SReg) (s : State),
    ∃ t, exec (.gfadd rd ra rb) s = .next t ∧ WritesOnlyS s t rd (s.readS ra ^^^ s.readS rb)

/-- R74: GFMUL, with `gf_mul` of R73; where the tables are as constructed, the product modulo 0x11D. -/
def Obligations.GfmulWritesProduct : Prop :=
  SpelledAs 0x4 (fun w => immBits w = 0) (fun w => .gfmul (rdBits w) (raBits w) (rbBits w)) ∧
  ∀ (rd ra rb : SReg) (s : State),
    ∃ t, exec (.gfmul rd ra rb) s = .next t ∧ WritesOnlyS s t rd (gfMul s.tables (s.readS ra) (s.readS rb)) ∧
      (s.TablesBuilt → t.readS rd = shiftXorMul (s.readS ra) (s.readS rb))

/-- R76: GFDIV, with `gf_div` of R75; where the tables are as constructed, the quotient modulo 0x11D. -/
def Obligations.GfdivWritesQuotient : Prop :=
  SpelledAs 0x5 (fun w => immBits w = 0) (fun w => .gfdiv (rdBits w) (raBits w) (rbBits w)) ∧
  ∀ (rd ra rb : SReg) (s : State),
    (s.readS rb = 0 → ∃ t, exec (.gfdiv rd ra rb) s = .next t ∧
      FaultEntered s t .divisionByZero (encode (.gfdiv rd ra rb))) ∧
    (s.readS rb ≠ 0 → ∃ t v, gfDiv s.tables (s.readS ra) (s.readS rb) = .ok v ∧ exec (.gfdiv rd ra rb) s = .next t ∧
      WritesOnlyS s t rd v ∧ (s.TablesBuilt → shiftXorMul v (s.readS rb) = s.readS ra))

/-- R78: GFINV, with `gf_inv` of R77; where the tables are as constructed, the inverse modulo 0x11D. -/
def Obligations.GfinvWritesInverse : Prop :=
  SpelledAs 0x6 (fun w => rbBits w = 0 ∧ immBits w = 0) (fun w => .gfinv (rdBits w) (raBits w)) ∧
  ∀ (rd ra : SReg) (s : State),
    (s.readS ra = 0 → ∃ t, exec (.gfinv rd ra) s = .next t ∧ FaultEntered s t .divisionByZero (encode (.gfinv rd ra))) ∧
    (s.readS ra ≠ 0 → ∃ t v, gfInv s.tables (s.readS ra) = .ok v ∧ exec (.gfinv rd ra) s = .next t ∧
      WritesOnlyS s t rd v ∧ (s.TablesBuilt → shiftXorMul (s.readS ra) v = 1))

/-- R80: GFPOW, with `gf_pow` of R79; where the tables are as constructed, the power modulo 0x11D. -/
def Obligations.GfpowWritesPower : Prop :=
  SpelledAs 0x7 (fun w => rbBits w = 0) (fun w => .gfpow (rdBits w) (raBits w) (immBits w)) ∧
  ∀ (rd ra : SReg) (n : Imm) (s : State),
    (s.readS ra = 0 ∧ n.toNat = 0 → ∃ t, exec (.gfpow rd ra n) s = .next t ∧
      FaultEntered s t .divisionByZero (encode (.gfpow rd ra n))) ∧
    (¬ (s.readS ra = 0 ∧ n.toNat = 0) → ∃ t v, gfPow s.tables (s.readS ra) n.toNat = .ok v ∧
      exec (.gfpow rd ra n) s = .next t ∧ WritesOnlyS s t rd v ∧
      (s.TablesBuilt → v = (shiftXorMul (s.readS ra))^[n.toNat] 1))

/-- R87: PEVAL, with `poly_eval` of R86. -/
def Obligations.PevalWritesValue : Prop :=
  SpelledAs 0x8 (fun w => immBits w = 0) (fun w => .peval (rdBits w) (raBits w) (rbBits w)) ∧
  ∀ (rd : SReg) (ra : PReg) (rb : SReg) (s : State),
    (s.readP ra = [] → ∃ t, exec (.peval rd ra rb) s = .next t ∧
      FaultEntered s t .invalidDegree (encode (.peval rd ra rb))) ∧
    (s.readP ra ≠ [] → ∃ t, exec (.peval rd ra rb) s = .next t ∧
      WritesOnlyS s t rd (polyEval s.tables (s.readP ra) (s.readS rb)))

/-- R89: PADD, with `poly_add` of R88. -/
def Obligations.PaddWritesSum : Prop :=
  SpelledAs 0xB (fun w => immBits w = 0) (fun w => .padd (rdBits w) (raBits w) (rbBits w)) ∧
  ∀ (rd ra rb : PReg) (s : State),
    (s.readP ra = [] ∨ s.readP rb = [] → ∃ t, exec (.padd rd ra rb) s = .next t ∧
      FaultEntered s t .invalidDegree (encode (.padd rd ra rb))) ∧
    (s.readP ra ≠ [] → s.readP rb ≠ [] → ∃ t, exec (.padd rd ra rb) s = .next t ∧
      WritesOnlyP s t rd (polyAdd (s.readP ra) (s.readP rb)) ∧ (s.PolysFit → (t.readP rd).length ≤ Config.maxLen))

/-- R91: PMULT, with `poly_mul` of R90. -/
def Obligations.PmultWritesProduct : Prop :=
  SpelledAs 0x9 (fun w => immBits w = 0) (fun w => .pmult (rdBits w) (raBits w) (rbBits w)) ∧
  ∀ (rd ra rb : PReg) (s : State),
    (s.readP ra = [] ∨ s.readP rb = [] → ∃ t, exec (.pmult rd ra rb) s = .next t ∧
      FaultEntered s t .invalidDegree (encode (.pmult rd ra rb))) ∧
    (s.readP ra ≠ [] → s.readP rb ≠ [] → Config.maxLen < (s.readP ra).length + (s.readP rb).length - 1 →
      ∃ t, exec (.pmult rd ra rb) s = .next t ∧ FaultEntered s t .capacityExceeded (encode (.pmult rd ra rb))) ∧
    (s.readP ra ≠ [] → s.readP rb ≠ [] → (s.readP ra).length + (s.readP rb).length - 1 ≤ Config.maxLen →
      ∃ t, exec (.pmult rd ra rb) s = .next t ∧ WritesOnlyP s t rd (polyMul s.tables (s.readP ra) (s.readP rb)))

/-- R93: PDIVMOD, with `poly_divrem` of R92. -/
def Obligations.PdivmodWritesRemainder : Prop :=
  SpelledAs 0xA (fun w => immBits w = 0) (fun w => .pdivmod (rdBits w) (raBits w) (rbBits w)) ∧
  ∀ (rd ra rb : PReg) (s : State),
    (s.readP ra = [] ∨ s.readP rb = [] ∨ (s.readP ra).length < (s.readP rb).length ∨ (s.readP rb).length = 1 →
      ∃ t, exec (.pdivmod rd ra rb) s = .next t ∧ FaultEntered s t .invalidDegree (encode (.pdivmod rd ra rb))) ∧
    (2 ≤ (s.readP rb).length → (s.readP rb).length ≤ (s.readP ra).length →
      ∃ t, exec (.pdivmod rd ra rb) s = .next t ∧ WritesOnlyP s t rd (polyDivrem s.tables (s.readP ra) (s.readP rb)) ∧
        (t.readP rd).length = (s.readP rb).length - 1 ∧ (s.PolysFit → (t.readP rd).length ≤ Config.maxLen - 1))

/-- R95: PDERIV, with `poly_deriv` of R94. -/
def Obligations.PderivWritesDerivative : Prop :=
  SpelledAs 0xC (fun w => rbBits w = 0 ∧ immBits w = 0) (fun w => .pderiv (rdBits w) (raBits w)) ∧
  ∀ (rd ra : PReg) (s : State),
    (s.readP ra = [] → ∃ t, exec (.pderiv rd ra) s = .next t ∧ FaultEntered s t .invalidDegree (encode (.pderiv rd ra))) ∧
    (s.readP ra ≠ [] → ∃ t, exec (.pderiv rd ra) s = .next t ∧ WritesOnlyP s t rd (polyDeriv (s.readP ra)) ∧
      1 ≤ (t.readP rd).length ∧ (t.readP rd).length ≤ max 1 ((s.readP ra).length - 1))

/-! ### The field functions -/

/-- R71. -/
def Obligations.FieldSumIsXor : Prop :=
  ∀ x y : Byte, gfAdd x y = x ^^^ y ∧ gfSub x y = gfAdd x y ∧ gfAdd x x = 0 ∧ gfAdd x 0 = x

/-- R73: the zero cases, the index into EXP, and the product it is. -/
def Obligations.FieldProductIsCarrylessProduct : Prop :=
  ∀ x y : Byte,
    (x = 0 ∨ y = 0 → gfMul builtTables x y = 0) ∧
    (∀ (hx : x ≠ 0) (hy : y ≠ 0), readLog builtTables x hx + readLog builtTables y hy ≤ 508 ∧
      ∀ h : readLog builtTables x hx + readLog builtTables y hy < 512,
        gfMul builtTables x y = readExp builtTables ⟨readLog builtTables x hx + readLog builtTables y hy, h⟩) ∧
    gfMul builtTables x y = shiftXorMul x y ∧ (gfMul builtTables x y = 0 → x = 0 ∨ y = 0) ∧
    gfMul builtTables x 1 = x ∧ gfMul builtTables x y = gfMul builtTables y x

/-- R75: the three cases in their order, the index into EXP, and the quotient it is. -/
def Obligations.FieldQuotientUndoesProduct : Prop :=
  ∀ x y : Byte,
    (y = 0 → gfDiv builtTables x y = .error .divisionByZero) ∧
    (y ≠ 0 → x = 0 → gfDiv builtTables x y = .ok 0) ∧
    (∀ (hx : x ≠ 0) (hy : y ≠ 0),
      1 ≤ readLog builtTables x hx + 255 - readLog builtTables y hy ∧
      readLog builtTables x hx + 255 - readLog builtTables y hy ≤ 509 ∧
      ∀ h : (readLog builtTables x hx + 255 - readLog builtTables y hy) % 255 < 512, gfDiv builtTables x y =
        .ok (readExp builtTables ⟨(readLog builtTables x hx + 255 - readLog builtTables y hy) % 255, h⟩)) ∧
    (∀ z, gfDiv builtTables x y = .ok z → gfMul builtTables z y = x)

/-- R77: the fault at 0, the index into EXP, and the inverse it is. -/
def Obligations.FieldInverseIsInverse : Prop :=
  gfInv builtTables 0 = .error .divisionByZero ∧
  ∀ (x : Byte) (hx : x ≠ 0),
    1 ≤ 255 - readLog builtTables x hx ∧
    ∃ z, gfInv builtTables x = .ok z ∧
      (∀ h : 255 - readLog builtTables x hx < 512, z = readExp builtTables ⟨255 - readLog builtTables x hx, h⟩) ∧
      gfMul builtTables x z = 1 ∧ (x = 1 → z = 1)

/-- R79: the three cases, the index into EXP, and the power it is. R79 states them for exponents up to 65535; that they go
on above is the model's choice (log entry 20). -/
def Obligations.FieldPowerIsRepeatedProduct : Prop :=
  ∀ (x : Byte) (n : Nat),
    (x = 0 → n = 0 → gfPow builtTables x n = .error .divisionByZero) ∧
    (x = 0 → 0 < n → gfPow builtTables x n = .ok 0) ∧
    (∀ hx : x ≠ 0,
      (n ≤ 65535 → readLog builtTables x hx * n ≤ 16645890) ∧
      (∀ h : readLog builtTables x hx * n % 255 < 512,
        gfPow builtTables x n = .ok (readExp builtTables ⟨readLog builtTables x hx * n % 255, h⟩)) ∧
      gfPow builtTables x n = .ok (repeatedProduct builtTables x n) ∧
      gfPow builtTables x n = gfPow builtTables x (n % 255))

/-- R81: the laws the document asserts, for all operands. For exponents above 65535 the clauses on `gf_pow` rest on the
model's choice (log entry 20). -/
def Obligations.FieldLawsHold : Prop :=
  (∀ x : Byte, x ≠ 0 → ∃ z, gfInv builtTables x = .ok z ∧ gfMul builtTables x z = 1) ∧
  (∀ x y z : Byte, gfMul builtTables x (gfAdd y z) = gfAdd (gfMul builtTables x y) (gfMul builtTables x z)) ∧
  (∀ x : Byte, gfAdd x x = 0 ∧ gfSub x x = 0) ∧
  (∀ x y : Byte, y ≠ 0 → gfDiv builtTables (gfMul builtTables x y) y = .ok x) ∧
  (∀ x : Byte, x ≠ 0 → gfPow builtTables x 0 = .ok 1) ∧ (∀ x : Byte, gfPow builtTables x 1 = .ok x) ∧
  (∀ x y : Byte, (∃ c, gfDiv builtTables x y = .error c) ↔ y = 0) ∧
  (∀ x : Byte, (∃ c, gfInv builtTables x = .error c) ↔ x = 0) ∧
  (∀ (x : Byte) (n : Nat), (∃ c, gfPow builtTables x n = .error c) ↔ x = 0 ∧ n = 0) ∧
  (∀ x : Byte, gfMul builtTables 0 x = 0 ∧ gfMul builtTables x 0 = 0) ∧
  (∀ y : Byte, y ≠ 0 → gfDiv builtTables 0 y = .ok 0) ∧ (∀ n : Nat, 0 < n → gfPow builtTables 0 n = .ok 0)

/-! ### The polynomial functions -/

/-- R82: `norm` drops zeros from the high-index end only, down to one coefficient. -/
def Obligations.NormDropsHighZeros : Prop :=
  ∀ p : Poly, Normalised (norm p) ∧ (∀ i, coeff (norm p) i = coeff p i) ∧ (norm p).length ≤ max 1 p.length ∧
    norm (norm p) = norm p ∧ norm [] = [0]

/-- R86: Horner's rule from the highest index down, the sum it is, and its special points. -/
def Obligations.HornerValueIsPowerSum : Prop :=
  (∀ (c x : Byte), polyEval builtTables [c] x = c) ∧
  (∀ (c : Byte) (p : Poly) (x : Byte), p ≠ [] →
    polyEval builtTables (c :: p) x = gfAdd (gfMul builtTables (polyEval builtTables p x) x) c) ∧
  (∀ (p : Poly) (x : Byte), p ≠ [] → polyEval builtTables p x =
    xorSum p.length fun i => gfMul builtTables (coeff p i) (repeatedProduct builtTables x i)) ∧
  (∀ p : Poly, p ≠ [] → polyEval builtTables p 0 = coeff p 0 ∧ polyEval builtTables p 1 = xorSum p.length (coeff p))

/-- R88: the sum by its coefficients, normalised. -/
def Obligations.PolynomialSumByCoefficients : Prop :=
  ∀ p q : Poly, p ≠ [] → q ≠ [] →
    (∀ i, coeff (polyAdd p q) i = gfAdd (coeff p i) (coeff q i)) ∧ Normalised (polyAdd p q) ∧
    1 ≤ (polyAdd p q).length ∧ (polyAdd p q).length ≤ max p.length q.length ∧
    polyAdd p p = [0] ∧ norm (polyAdd p p) = [0]

/-- R90, R85: the product by its coefficients and its exact length, not normalised; the document's sentence on evaluation
is a statement of its own. The absence of normalisation is the choice of C3, D15 (log entry 17). -/
def Obligations.PolynomialProductIsConvolution : Prop :=
  ∀ p q : Poly, p ≠ [] → q ≠ [] →
    (polyMul builtTables p q).length = p.length + q.length - 1 ∧
    (∀ k, coeff (polyMul builtTables p q) k = convolution builtTables p q k) ∧
    polyMul builtTables p q = polyMul builtTables q p ∧
    (∀ a, polyMul builtTables p [a] = scal builtTables p a) ∧
    polyMul builtTables [0] q = List.replicate q.length 0 ∧
    (Normalised p → Normalised q → p ≠ [0] → q ≠ [0] → Normalised (polyMul builtTables p q))

/-- R90, `95_test_vectors.md` S11: the value of a product is the product of the values. -/
def Obligations.ProductEvaluatesToProduct : Prop :=
  ∀ (p q : Poly) (x : Byte), p ≠ [] → q ≠ [] →
    polyEval builtTables (polyMul builtTables p q) x =
      gfMul builtTables (polyEval builtTables p x) (polyEval builtTables q x)

/-- R92 (a) to (f): there is a working copy that satisfies the loop's equations, position by position, whose last
`len(q) - 1` positions are the result; the equations determine it, since each position refers to lower ones only. `q[0]`
is not read. -/
def Obligations.RemainderByIndexAlgorithm : Prop :=
  ∀ (t : Tables) (p q : Poly), 2 ≤ q.length → q.length ≤ p.length →
    (∃ w : Poly, w.length = p.length ∧ polyDivrem t p q = w.drop (p.length - q.length + 1) ∧
      ∀ k, k < p.length → coeff w k = gfAdd (coeff p k) (xorSum (min k (p.length - q.length + 1)) fun i =>
        if k - i < q.length then gfMul t (coeff q (k - i)) (coeff w i) else 0)) ∧
    (polyDivrem t p q).length = q.length - 1 ∧
    (∀ c, polyDivrem t p (c :: q.tail) = polyDivrem t p q)

/-- R92 (d), `93_implementation_defined.md` U6: with `q[0] = 1`, and index 0 the highest degree of both operands, the
result is the remainder: the dividend is quotient times divisor plus the result, and the result is shorter than the
divisor. In that reading the last position of a sequence is the constant term, so the sum is taken at the high-index
end. -/
def Obligations.MonicDivisionLeavesRemainder : Prop :=
  ∀ p q : Poly, 2 ≤ q.length → q.length ≤ p.length → coeff q 0 = 1 →
    ∃ u : Poly, u.length = p.length - q.length + 1 ∧
      ∀ k, k < p.length → coeff p k = gfAdd (coeff (polyMul builtTables u q) k)
        (if k < u.length then 0 else coeff (polyDivrem builtTables p q) (k - u.length))

/-- R94: the derivative by its coefficients, normalised. -/
def Obligations.DerivativeByCoefficients : Prop :=
  (∀ c : Byte, polyDeriv [c] = [0]) ∧
  ∀ p : Poly, p ≠ [] → Normalised (polyDeriv p) ∧
    (∀ i, coeff (polyDeriv p) i = if (i + 1) % 2 = 1 then coeff p (i + 1) else 0) ∧
    (polyDeriv p).length ≤ max 1 (p.length - 1) ∧ (∀ c, polyDeriv (c :: p.tail) = polyDeriv p)

/-! ### The machine as a whole -/

/-- R24 at reset: the tables are as constructed, every polynomial fits MAXLEN, and the record in STATUS and FCMD is legal;
that both are 0 at reset stands in ResetStateHoldsResetValues. -/
def Obligations.ResetMeetsInvariant : Prop := State.reset.Inv

/-- R24: every step keeps the invariant: the tables as constructed, no polynomial longer than MAXLEN, and a STATUS and
FCMD that are zero or record a cause the recorded word can raise. -/
def Obligations.StepKeepsInvariant : Prop := ∀ s t : State, s.Inv → step s = .next t → t.Inv

/-- R24, R19, R20: what a host can rely on in every state that any list of operations reaches from reset, whatever the
scalar registers held. -/
def Obligations.ReachableStatesAreConsistent : Prop :=
  ∀ (ops : List HostOp) (n : Nat) (t : State), core.run n { State.reset with pending := ops } = .next t →
    (∀ k, (t.readP k).length ≤ Config.maxLen) ∧ t.tables = builtTables ∧
    t.status ∈ ([0x00000000, 0x00000003, 0x00000005, 0x00000007, 0x00000009, 0x0000000B] : List Word32) ∧
    (t.halted = false ↔ t.cause = 0) ∧ (t.halted = false → t.fcmd = 0)

/-- R130, R43: every step of the machine ends in a next state, performs exactly the oldest operation the host has yet to
perform, and answers it; with none to perform nothing changes (log entries 3 and 4). -/
def Obligations.EveryStepCompletes : Prop :=
  ∀ s : State, ∃ t, step s = .next t ∧ t.pending = s.pending.tail ∧
    (s.pending = [] → t = s) ∧ (s.pending ≠ [] → ∃ r, t.replies = s.replies ++ [r])

/-- R22, R113: a command changes its one destination register and nothing else, or it enters a fault and changes nothing
but STATUS and FCMD; every command, in every state. -/
def Obligations.CommandChangesOnlyItsDestination : Prop :=
  ∀ (i : Instr) (s : State), ∃ t, exec i s = .next t ∧
    ((∃ rd v, scalarDest i = some rd ∧ WritesOnlyS s t rd v) ∨ (∃ rd p, polyDest i = some rd ∧ WritesOnlyP s t rd p) ∨
      ∃ c ∈ causesOf i, FaultEntered s t c (encode i))

/-- R15: no command makes a polynomial register empty. -/
def Obligations.CommandNeverEmptiesRegister : Prop :=
  ∀ (i : Instr) (s t : State) (k : PReg), exec i s = .next t → t.readP k = [] → s.readP k = []

/-- R83, R23: what a command does is determined by the registers it reads and the tables: two states that agree on those
give the same result or the same fault. -/
def Obligations.ResultDependsOnSourcesOnly : Prop :=
  ∀ (i : Instr) (s u : State), s.halted = false → u.halted = false → SourcesAgree i s u →
    ∃ s' u', exec i s = .next s' ∧ exec i u = .next u' ∧ s'.halted = u'.halted ∧
      (s'.halted = true → s'.status = u'.status ∧ s'.fcmd = u'.fcmd) ∧
      (s'.halted = false → (∀ rd, scalarDest i = some rd → s'.readS rd = u'.readS rd) ∧
        ∀ rd, polyDest i = some rd → s'.readP rd = u'.readP rd)

/-- R17, R31: no command and no host operation but reset changes either table, and reset gives the constructed ones. -/
def Obligations.TablesAreNeverWritten : Prop :=
  ∀ s t : State, step s = .next t →
    t.tables = s.tables ∨ (s.pending.head? = some .hostReset ∧ t.tables = builtTables)

/-- R84: an empty source faults, whichever source it is, before any other test. -/
def Obligations.EmptySourceRaisesInvalidDegree : Prop :=
  ∀ s : State,
    (∀ (rd : SReg) (ra : PReg) (rb : SReg), s.readP ra = [] →
      ∃ t, exec (.peval rd ra rb) s = .next t ∧ FaultEntered s t .invalidDegree (encode (.peval rd ra rb))) ∧
    (∀ rd ra : PReg, s.readP ra = [] →
      ∃ t, exec (.pderiv rd ra) s = .next t ∧ FaultEntered s t .invalidDegree (encode (.pderiv rd ra))) ∧
    ∀ rd ra rb : PReg, s.readP ra = [] ∨ s.readP rb = [] →
      ∀ i ∈ [Instr.padd rd ra rb, .pmult rd ra rb, .pdivmod rd ra rb],
        ∃ t, exec i s = .next t ∧ FaultEntered s t .invalidDegree (encode i)

/-- R108: exactly these conditions raise DivisionByZero. -/
def Obligations.DivisionByZeroExactly : Prop :=
  ∀ (i : Instr) (s : State), s.halted = false → ∃ t, exec i s = .next t ∧
    (FaultEntered s t .divisionByZero (encode i) ↔
      (∃ rd ra rb, i = .gfdiv rd ra rb ∧ s.readS rb = 0) ∨ (∃ rd ra, i = .gfinv rd ra ∧ s.readS ra = 0) ∨
      (∃ rd ra n, i = .gfpow rd ra n ∧ s.readS ra = 0 ∧ n.toNat = 0) ∨ (∃ rd ra, i = .logrd rd ra ∧ s.readS ra = 0))

/-- R109: exactly these conditions raise InvalidDegree. -/
def Obligations.InvalidDegreeExactly : Prop :=
  ∀ (i : Instr) (s : State), s.halted = false → ∃ t, exec i s = .next t ∧
    (FaultEntered s t .invalidDegree (encode i) ↔
      (∃ rd ra rb, i = .peval rd ra rb ∧ s.readP ra = []) ∨ (∃ rd ra, i = .pderiv rd ra ∧ s.readP ra = []) ∨
      (∃ rd ra rb, (i = .padd rd ra rb ∨ i = .pmult rd ra rb ∨ i = .pdivmod rd ra rb) ∧
        (s.readP ra = [] ∨ s.readP rb = [])) ∨
      (∃ rd ra rb, i = .pdivmod rd ra rb ∧
        ((s.readP ra).length < (s.readP rb).length ∨ (s.readP rb).length = 1)))

/-- R110, R112: exactly these conditions raise IndexOutOfRange and CapacityExceeded. For the second the sources hold
polynomials: an empty one raises InvalidDegree first (R114). -/
def Obligations.IndexAndCapacityFaultsExactly : Prop :=
  ∀ (i : Instr) (s : State), s.halted = false → ∃ t, exec i s = .next t ∧
    (FaultEntered s t .indexOutOfRange (encode i) ↔ ∃ rd n, i = .exprd rd n ∧ 511 < n.toNat) ∧
    (FaultEntered s t .capacityExceeded (encode i) ↔ ∃ rd ra rb, i = .pmult rd ra rb ∧ s.readP ra ≠ [] ∧
      s.readP rb ≠ [] ∧ Config.maxLen < (s.readP ra).length + (s.readP rb).length - 1)

/-- R116: nothing but HostReset clears HALTED, and until then STATUS, FCMD, the registers and the tables stay as the
first fault left them. -/
def Obligations.OnlyResetLeavesHaltedState : Prop :=
  ∀ s t : State, s.halted = true → step s = .next t →
    (t.halted = false → s.pending.head? = some .hostReset) ∧
    (s.pending.head? ≠ some .hostReset → SameRecord s t ∧ SameData s t)

/-- R113: what a step that halts the core has done, and what a step that does not halt it leaves alone. -/
def Obligations.FaultEntryIsWholeEffect : Prop :=
  ∀ (s t : State) (w : Word32) (rest : List HostOp), s.pending = .hostIssue w :: rest → s.halted = false →
    step s = .next t →
    (t.halted = true → ∃ c, t.status = statusWord c ∧ MayRaise c w ∧ t.fcmd = w ∧ SameData s t) ∧
    (t.halted = false → SameRecord s t)

/-- R115, R131: faults are precise. When a run of host operations that starts not halted and has no reset ends halted, it
failed at the command in FCMD: the operations before it have taken their effect and left the core not halted, that command has written no
register, and nothing after it has. -/
def Obligations.FaultsArePrecise : Prop :=
  ∀ (s t : State), s.halted = false → HostOp.hostReset ∉ s.pending →
    core.run s.pending.length s = .next t → t.halted = true →
    ∃ (before after : List HostOp) (w : Word32) (u : State), s.pending = before ++ .hostIssue w :: after ∧
      core.run before.length s = .next u ∧ u.halted = false ∧ t.fcmd = w ∧ SameData u t

/-! ### The document's other functions -/

/-- R97, R98, R100, R101: scal, strip, shift and copy as functions, and the products and sums of polynomials that equal
them. None is a command (`00_scope.md` R4, R104). -/
def Obligations.AuxiliaryFunctionsAsProductsAndSums : Prop :=
  ∀ p : Poly, p ≠ [] →
    (∀ a, (scal builtTables p a).length = p.length ∧
      (∀ i, i < p.length → coeff (scal builtTables p a) i = gfMul builtTables (coeff p i) a) ∧
      polyMul builtTables p [a] = scal builtTables p a) ∧
    scal builtTables p 0 = List.replicate p.length 0 ∧ scal builtTables p 1 = p ∧
    strip p = .ok (norm p) ∧ strip (norm p) = .ok (norm p) ∧ strip (polyAdd p p) = .ok [0] ∧
    strip [] = .error .invalidDegree ∧ polyAdd p [0] = norm p ∧
    shiftPoly p = 0 :: p ∧ polyMul builtTables p [0, 1] = shiftPoly p ∧
    copyPoly p = p ∧ polyMul builtTables p [1] = p

/-- R99: reverse, from the highest nonzero coefficient down; no value when there is none. -/
def Obligations.ReverseTrimsAndReverses : Prop :=
  (∀ (p : Poly) (k : Nat), k < p.length → coeff p k ≠ 0 → (∀ j, k < j → coeff p j = 0) →
    ∃ r, reversePoly p = some r ∧ r.length = k + 1 ∧ (∀ j, j ≤ k → coeff r j = coeff p (k - j)) ∧ coeff r 0 ≠ 0) ∧
  (∀ p : Poly, (∀ c ∈ p, c = 0) → reversePoly p = none)

/-- R102, R103: the products of the factors `1 + generator^e X`, their length, and their independence of the order. That
`gf_pow(2, e)` is the generator's power for `e` above 65535 too rests on the model's choice (log entry 20). -/
def Obligations.GeneratorPolynomialsAreProducts : Prop :=
  (∀ e : Nat, generatorPower builtTables e = generatorTo e ∧ gfPow builtTables 2 e = .ok (generatorPower builtTables e)) ∧
  (∀ n : Nat, createGenPoly builtTables (n + 1) =
      polyMul builtTables (createGenPoly builtTables n) [1, generatorTo n] ∧
    (createGenPoly builtTables n).length = n + 1 ∧ Normalised (createGenPoly builtTables n) ∧
    createGenPoly builtTables n = createErasurePoly builtTables (List.range n)) ∧
  createGenPoly builtTables 0 = [1] ∧ createGenPoly builtTables 2 = [1, 3, 2] ∧
  (∀ es : List Nat, (createErasurePoly builtTables es).length = es.length + 1) ∧
  (∀ (es : List Nat) (e : Nat), createErasurePoly builtTables (es ++ [e]) =
    polyMul builtTables (createErasurePoly builtTables es) [1, generatorTo e]) ∧
  (∀ es es' : List Nat, es.Perm es' → createErasurePoly builtTables es = createErasurePoly builtTables es')
end

