-- ==== Sys2Proof/Laws/Encoding.lean ====
section
/-! SUPPORT. The fields of a packed word, and a packed word against a mask. -/

namespace Sys2Proof

/-- A register number as the four bits of its field. -/
def regBits (r : Fin 16) : BitVec 4 := BitVec.ofNat 4 r.val

@[simp] theorem regBits_toNat (r : Fin 16) : (regBits r).toNat = r.val := by
  simp only [regBits, BitVec.toNat_ofNat]
  omega

@[simp] theorem regBits_zero : regBits 0 = 0 := rfl

variable (rd ra rb : Fin 16) (imm : Imm)

/-- A packed word as a number (`30_encoding.md` R46). -/
theorem pack_toNat {op : Nat} (h : op < 16) : (pack op rd ra rb imm).toNat =
    op * 2 ^ 28 + rd.val * 2 ^ 24 + ra.val * 2 ^ 20 + rb.val * 2 ^ 16 + imm.toNat := by
  have := imm.isLt
  simp only [pack, BitVec.toNat_ofNat]
  omega

theorem fieldOP_pack {op : Nat} (h : op < 16) : fieldOP (pack op rd ra rb imm) = op := by
  have := imm.isLt
  simp only [fieldOP, bitField, pack_toNat rd ra rb imm h]
  omega

theorem fieldRD_pack {op : Nat} (h : op < 16) : fieldRD (pack op rd ra rb imm) = rd := by
  have := imm.isLt
  apply Fin.ext
  simp only [fieldRD, bitField, pack_toNat rd ra rb imm h]
  omega

theorem fieldRA_pack {op : Nat} (h : op < 16) : fieldRA (pack op rd ra rb imm) = ra := by
  have := imm.isLt
  apply Fin.ext
  simp only [fieldRA, bitField, pack_toNat rd ra rb imm h]
  omega

theorem fieldRB_pack {op : Nat} (h : op < 16) : fieldRB (pack op rd ra rb imm) = rb := by
  have := imm.isLt
  apply Fin.ext
  simp only [fieldRB, bitField, pack_toNat rd ra rb imm h]
  omega

theorem fieldIMM_pack {op : Nat} (h : op < 16) : fieldIMM (pack op rd ra rb imm) = imm := by
  have := imm.isLt
  apply BitVec.eq_of_toNat_eq
  simp only [fieldIMM, bitField, pack_toNat rd ra rb imm h, BitVec.toNat_ofNat]
  omega

/-- A packed word as its fields side by side, the form a mask is met with field by field. -/
theorem pack_eq_append {op : Nat} (h : op < 16) : pack op rd ra rb imm =
    BitVec.ofNat 4 op ++ regBits rd ++ regBits ra ++ regBits rb ++ imm := by
  have := imm.isLt
  apply BitVec.eq_of_toNat_eq
  rw [pack_toNat rd ra rb imm h]
  simp only [BitVec.toNat_append, regBits_toNat, BitVec.toNat_ofNat]
  rw [← Nat.shiftLeft_add_eq_or_of_lt (by omega), ← Nat.shiftLeft_add_eq_or_of_lt (by omega),
    ← Nat.shiftLeft_add_eq_or_of_lt (by omega), ← Nat.shiftLeft_add_eq_or_of_lt (by omega)]
  simp only [Nat.shiftLeft_eq]
  omega

/-- A packed word met with a mask that is itself made of whole fields. -/
theorem pack_and {op : Nat} (h : op < 16) (a b c d : BitVec 4) (e : BitVec 16) :
    pack op rd ra rb imm &&& (a ++ b ++ c ++ d ++ e) =
      (BitVec.ofNat 4 op &&& a) ++ (regBits rd &&& b) ++ (regBits ra &&& c) ++ (regBits rb &&& d) ++
        (imm &&& e) := by
  rw [pack_eq_append rd ra rb imm h]
  simp only [← BitVec.and_append]

end Sys2Proof
end

