-- ==== Sys2Proof/Laws/State.lean ====
section
/-! SUPPORT. What each update of the state does to each field and each register read. -/

namespace Sys2Proof.Machine

variable (s : State)

@[simp] theorem State.writeS_pregs (i : SReg) (v : Byte) : (s.writeS i v).pregs = s.pregs := rfl
@[simp] theorem State.writeS_tables (i : SReg) (v : Byte) : (s.writeS i v).tables = s.tables := rfl
@[simp] theorem State.writeS_status (i : SReg) (v : Byte) : (s.writeS i v).status = s.status := rfl
@[simp] theorem State.writeS_fcmd (i : SReg) (v : Byte) : (s.writeS i v).fcmd = s.fcmd := rfl
@[simp] theorem State.writeS_resets (i : SReg) (v : Byte) : (s.writeS i v).resets = s.resets := rfl
@[simp] theorem State.writeS_pending (i : SReg) (v : Byte) : (s.writeS i v).pending = s.pending := rfl
@[simp] theorem State.writeS_replies (i : SReg) (v : Byte) : (s.writeS i v).replies = s.replies := rfl
@[simp] theorem State.readP_writeS (i : SReg) (v : Byte) (k : PReg) : (s.writeS i v).readP k = s.readP k := rfl
@[simp] theorem State.halted_writeS (i : SReg) (v : Byte) : (s.writeS i v).halted = s.halted := rfl

@[simp] theorem State.readS_writeS_same (i : SReg) (v : Byte) : (s.writeS i v).readS i = v := by
  simp [State.readS, State.writeS]

@[simp] theorem State.readS_writeS_of_ne {i k : SReg} (v : Byte) (h : k ≠ i) :
    (s.writeS i v).readS k = s.readS k := by
  have : i.val ≠ k.val := fun h' => h (Fin.ext h'.symm)
  simp [State.readS, State.writeS, this]

@[simp] theorem State.writeP_sregs (i : PReg) (p : Poly) : (s.writeP i p).sregs = s.sregs := rfl
@[simp] theorem State.writeP_tables (i : PReg) (p : Poly) : (s.writeP i p).tables = s.tables := rfl
@[simp] theorem State.writeP_status (i : PReg) (p : Poly) : (s.writeP i p).status = s.status := rfl
@[simp] theorem State.writeP_fcmd (i : PReg) (p : Poly) : (s.writeP i p).fcmd = s.fcmd := rfl
@[simp] theorem State.writeP_resets (i : PReg) (p : Poly) : (s.writeP i p).resets = s.resets := rfl
@[simp] theorem State.writeP_pending (i : PReg) (p : Poly) : (s.writeP i p).pending = s.pending := rfl
@[simp] theorem State.writeP_replies (i : PReg) (p : Poly) : (s.writeP i p).replies = s.replies := rfl
@[simp] theorem State.readS_writeP (i : PReg) (p : Poly) (k : SReg) : (s.writeP i p).readS k = s.readS k := rfl
@[simp] theorem State.halted_writeP (i : PReg) (p : Poly) : (s.writeP i p).halted = s.halted := rfl

@[simp] theorem State.readP_writeP_same (i : PReg) (p : Poly) : (s.writeP i p).readP i = p := by
  simp [State.readP, State.writeP]

@[simp] theorem State.readP_writeP_of_ne {i k : PReg} (p : Poly) (h : k ≠ i) :
    (s.writeP i p).readP k = s.readP k := by
  have : i.val ≠ k.val := fun h' => h (Fin.ext h'.symm)
  simp [State.readP, State.writeP, this]

@[simp] theorem State.raise_sregs (c : Cause) (w : Word32) : (s.raise c w).sregs = s.sregs := rfl
@[simp] theorem State.raise_pregs (c : Cause) (w : Word32) : (s.raise c w).pregs = s.pregs := rfl
@[simp] theorem State.raise_tables (c : Cause) (w : Word32) : (s.raise c w).tables = s.tables := rfl
@[simp] theorem State.raise_status (c : Cause) (w : Word32) : (s.raise c w).status = statusWord c := rfl
@[simp] theorem State.raise_fcmd (c : Cause) (w : Word32) : (s.raise c w).fcmd = w := rfl
@[simp] theorem State.raise_resets (c : Cause) (w : Word32) : (s.raise c w).resets = s.resets := rfl
@[simp] theorem State.raise_pending (c : Cause) (w : Word32) : (s.raise c w).pending = s.pending := rfl
@[simp] theorem State.raise_replies (c : Cause) (w : Word32) : (s.raise c w).replies = s.replies := rfl
@[simp] theorem State.readS_raise (c : Cause) (w : Word32) (k : SReg) : (s.raise c w).readS k = s.readS k := rfl
@[simp] theorem State.readP_raise (c : Cause) (w : Word32) (k : PReg) : (s.raise c w).readP k = s.readP k := rfl

@[simp] theorem State.reply_sregs (r : Reply) : (s.reply r).sregs = s.sregs := rfl
@[simp] theorem State.reply_pregs (r : Reply) : (s.reply r).pregs = s.pregs := rfl
@[simp] theorem State.reply_tables (r : Reply) : (s.reply r).tables = s.tables := rfl
@[simp] theorem State.reply_status (r : Reply) : (s.reply r).status = s.status := rfl
@[simp] theorem State.reply_fcmd (r : Reply) : (s.reply r).fcmd = s.fcmd := rfl
@[simp] theorem State.reply_resets (r : Reply) : (s.reply r).resets = s.resets := rfl
@[simp] theorem State.reply_pending (r : Reply) : (s.reply r).pending = s.pending := rfl
@[simp] theorem State.reply_replies (r : Reply) : (s.reply r).replies = s.replies ++ [r] := rfl
@[simp] theorem State.readS_reply (r : Reply) (k : SReg) : (s.reply r).readS k = s.readS k := rfl
@[simp] theorem State.readP_reply (r : Reply) (k : PReg) : (s.reply r).readP k = s.readP k := rfl
@[simp] theorem State.halted_reply (r : Reply) : (s.reply r).halted = s.halted := rfl

@[simp] theorem State.afterReset_sregs : s.afterReset.sregs = drawnScalars s.resets := rfl
@[simp] theorem State.afterReset_tables : s.afterReset.tables = builtTables := rfl
@[simp] theorem State.afterReset_status : s.afterReset.status = 0 := rfl
@[simp] theorem State.afterReset_fcmd : s.afterReset.fcmd = 0 := rfl
@[simp] theorem State.afterReset_resets : s.afterReset.resets = s.resets + 1 := rfl
@[simp] theorem State.afterReset_pending : s.afterReset.pending = s.pending := rfl
@[simp] theorem State.afterReset_replies : s.afterReset.replies = s.replies := rfl

@[simp] theorem State.readP_afterReset (k : PReg) : s.afterReset.readP k = [] := by
  simp [State.readP, State.afterReset, State.reset]

/-- Once a cause is recorded, HALTED is 1. -/
@[simp] theorem haltedField_statusWord (c : Cause) : haltedField (statusWord c) = true := by
  cases c <;> decide

@[simp] theorem State.halted_raise (c : Cause) (w : Word32) : (s.raise c w).halted = true :=
  haltedField_statusWord c

@[simp] theorem State.halted_afterReset : s.afterReset.halted = false := by
  simp [State.halted, haltedField]

/-- Taking an operation off the host's list changes no register. -/
@[simp] theorem State.readS_pending (l : List HostOp) (k : SReg) : ({ s with pending := l } : State).readS k = s.readS k :=
  rfl

@[simp] theorem State.readP_pending (l : List HostOp) (k : PReg) : ({ s with pending := l } : State).readP k = s.readP k :=
  rfl

@[simp] theorem State.halted_pending (l : List HostOp) : ({ s with pending := l } : State).halted = s.halted := rfl

/-- MAXLEN is at least 2 (`00_scope.md` R6). -/
theorem two_le_maxLen : 2 ≤ Config.maxLen := by unfold Config.maxLen; omega

/-- MAXLEN is at most 65535 (R6). -/
theorem maxLen_le : Config.maxLen ≤ 65535 := by
  have := Config.maxLenAboveTwo.isLt
  unfold Config.maxLen
  omega

end Sys2Proof.Machine
end

