-- ==== Sys2Proof/Laws/Ops.lean ====
section
/-! SUPPORT. What each shared operation can do, once: the ends of a command, its sources, a command, a step. -/

namespace Sys2Proof.Machine

/-- A command with a scalar destination ends by writing it or by entering a fault. -/
theorem State.finishS_cases (s : State) (w : Word32) (rd : SReg) (r : Except Cause Byte) :
    (∃ v, r = .ok v ∧ WritesOnlyS s (s.finishS w rd r) rd v) ∨
      ∃ c, r = .error c ∧ FaultEntered s (s.finishS w rd r) c w := by
  cases r with
  | ok v =>
    refine .inl ⟨v, rfl, State.readS_writeS_same s rd v, fun k hk => State.readS_writeS_of_ne s v hk, fun _ => rfl, rfl,
      ⟨rfl, rfl⟩, rfl, rfl, rfl⟩
  | error c => exact .inr ⟨c, rfl, rfl, rfl, ⟨fun _ => rfl, fun _ => rfl, rfl⟩, rfl, rfl, rfl⟩

/-- A command with a polynomial destination ends by writing it or by entering a fault. -/
theorem State.finishP_cases (s : State) (w : Word32) (rd : PReg) (r : Except Cause Poly) :
    (∃ p, r = .ok p ∧ WritesOnlyP s (s.finishP w rd r) rd p) ∨
      ∃ c, r = .error c ∧ FaultEntered s (s.finishP w rd r) c w := by
  cases r with
  | ok p =>
    refine .inl ⟨p, rfl, State.readP_writeP_same s rd p, fun k hk => State.readP_writeP_of_ne s p hk, fun _ => rfl, rfl,
      ⟨rfl, rfl⟩, rfl, rfl, rfl⟩
  | error c => exact .inr ⟨c, rfl, rfl, rfl, ⟨fun _ => rfl, fun _ => rfl, rfl⟩, rfl, rfl, rfl⟩

/-- One polynomial source answers its sequence exactly when it holds a polynomial. -/
theorem State.polySource_cases (s : State) (k : PReg) :
    (s.readP k = [] ∧ s.polySource k = .error .invalidDegree) ∨ (s.readP k ≠ [] ∧ s.polySource k = .ok (s.readP k)) := by
  by_cases h : s.readP k = []
  · exact .inl ⟨h, by simp [State.polySource, h]⟩
  · exact .inr ⟨h, by simp [State.polySource, h]⟩

/-- Two polynomial sources answer their sequences exactly when both hold a polynomial. -/
theorem State.polySources_cases (s : State) (ra rb : PReg) :
    ((s.readP ra = [] ∨ s.readP rb = []) ∧ s.polySources ra rb = .error .invalidDegree) ∨
      ((s.readP ra ≠ [] ∧ s.readP rb ≠ []) ∧ s.polySources ra rb = .ok (s.readP ra, s.readP rb)) := by
  obtain ⟨ha, ea⟩ | ⟨ha, ea⟩ := s.polySource_cases ra
  · exact .inl ⟨.inl ha, by simp [State.polySources, ea]⟩
  · obtain ⟨hb, eb⟩ | ⟨hb, eb⟩ := s.polySource_cases rb
    · exact .inl ⟨.inr hb, by simp [State.polySources, ea, eb]⟩
    · exact .inr ⟨⟨ha, hb⟩, by simp [State.polySources, ea, eb]⟩

/-- Every command ends as `finishS` or `finishP` on its own word and destination. -/
theorem exec_cases (i : Instr) (s : State) :
    (∃ rd r, scalarDest i = some rd ∧ polyDest i = none ∧ exec i s = .next (s.finishS (encode i) rd r)) ∨
      ∃ rd r, polyDest i = some rd ∧ scalarDest i = none ∧ exec i s = .next (s.finishP (encode i) rd r) := by
  cases i
  case pmult => exact .inr ⟨_, _, rfl, rfl, rfl⟩
  case pdivmod => exact .inr ⟨_, _, rfl, rfl, rfl⟩
  case padd => exact .inr ⟨_, _, rfl, rfl, rfl⟩
  case pderiv => exact .inr ⟨_, _, rfl, rfl, rfl⟩
  all_goals exact .inl ⟨_, _, rfl, rfl, rfl⟩

/-- A cause is read back from the status word it is recorded in. -/
theorem statusWord_injective {c d : Cause} (h : statusWord c = statusWord d) : c = d := by
  revert h
  cases c <;> cases d <;> decide

/-- A core that is not halted records no cause. -/
theorem State.status_ne_of_not_halted {s : State} (h : s.halted = false) (c : Cause) : s.status ≠ statusWord c := by
  intro e
  simp [State.halted, e] at h

/-- Entering a fault is what `raise` does. -/
theorem State.faultEntered_raise (s : State) (c : Cause) (w : Word32) : FaultEntered s (s.raise c w) c w :=
  ⟨rfl, rfl, ⟨fun _ => rfl, fun _ => rfl, rfl⟩, rfl, rfl, rfl⟩

/-- On a core that is not halted a scalar command enters a fault exactly when its result is that cause. -/
theorem State.finishS_fault_iff {s : State} (h : s.halted = false) (w : Word32) (rd : SReg) (r : Except Cause Byte)
    (c : Cause) : FaultEntered s (s.finishS w rd r) c w ↔ r = .error c := by
  cases r with
  | ok v => exact ⟨fun e => absurd e.1 (State.status_ne_of_not_halted h c), nofun⟩
  | error d => exact ⟨fun e => by rw [statusWord_injective e.1], fun e => by cases e; exact s.faultEntered_raise c w⟩

/-- On a core that is not halted a polynomial command enters a fault exactly when its result is that cause. -/
theorem State.finishP_fault_iff {s : State} (h : s.halted = false) (w : Word32) (rd : PReg) (r : Except Cause Poly)
    (c : Cause) : FaultEntered s (s.finishP w rd r) c w ↔ r = .error c := by
  cases r with
  | ok v => exact ⟨fun e => absurd e.1 (State.status_ne_of_not_halted h c), nofun⟩
  | error d => exact ⟨fun e => by rw [statusWord_injective e.1], fun e => by cases e; exact s.faultEntered_raise c w⟩

/-- What a step does, by the operation the host performs. -/
theorem step_cons (s : State) (op : HostOp) (rest : List HostOp) (h : s.pending = op :: rest) :
    step s = perform op { s with pending := rest } := by
  simp [step, performNext, h]

/-- A step with nothing to perform changes nothing. -/
theorem step_nil (s : State) (h : s.pending = []) : step s = .next s := by
  simp [step, performNext, h]

/-- The decoder's fields are the slices of the word (`30_encoding.md` R46). -/
theorem fieldOP_eq (w : Word32) : fieldOP w = (opBits w).toNat := by
  simp [fieldOP, opBits, bitField, Nat.shiftRight_eq_div_pow]

theorem fieldRD_eq (w : Word32) : fieldRD w = rdBits w := by
  apply Fin.ext
  simp [fieldRD, rdBits, bitField, Nat.shiftRight_eq_div_pow]

theorem fieldRA_eq (w : Word32) : fieldRA w = raBits w := by
  apply Fin.ext
  simp [fieldRA, raBits, bitField, Nat.shiftRight_eq_div_pow]

theorem fieldRB_eq (w : Word32) : fieldRB w = rbBits w := by
  apply Fin.ext
  simp [fieldRB, rbBits, bitField, Nat.shiftRight_eq_div_pow]

theorem fieldIMM_eq (w : Word32) : fieldIMM w = immBits w := by
  apply BitVec.eq_of_toNat_eq
  simp [fieldIMM, immBits, bitField]

end Sys2Proof.Machine
end

