-- ==== Sys2Proof/Laws/PerInstr.lean ====
section
/-! SUPPORT. For every instruction: the word that encodes it is well formed by the masks of `30_encoding.md` R48, which
the encoder does not use. One lemma per constructor. -/

namespace Sys2Proof.Laws.WordLegal

/-- The instruction's word is legal by mask and match (R48, R50). -/
def Statement (i : Instr) : Prop := wellFormedWord (encode i) = true

/-- A word that a row of the opcode map spells is well formed. -/
theorem of_row {w : Word32} (r : OpRow) (hr : r ∈ opcodeMap) (h : w &&& r.mask = r.pattern) :
    wellFormedWord w = true :=
  List.any_eq_true.mpr ⟨r, hr, by simp [OpRow.spells, h]⟩

variable (rd ra rb : Fin 16) (imm : Imm)

/-- Form TI against its mask. -/
theorem mask_ti {op : Nat} (h : op < 16) : pack op rd 0 0 imm &&& 0xF0FF0000 = pack op 0 0 0 0 := by
  have := pack_and rd 0 0 imm h 0xF 0 0xF 0xF 0
  rw [pack_eq_append 0 0 0 0 h, show (0xF0FF0000 : Word32) = (0xF : BitVec 4) ++ (0 : BitVec 4) ++ (0xF : BitVec 4) ++ (0xF : BitVec 4) ++ (0 : BitVec 16) from by decide, this]
  have : BitVec.ofNat 4 op &&& 15#4 = BitVec.ofNat 4 op := BitVec.and_allOnes
  simp [this]

/-- Forms SS and PP against their mask. -/
theorem mask_ss {op : Nat} (h : op < 16) : pack op rd ra 0 0 &&& 0xF00FFFFF = pack op 0 0 0 0 := by
  have := pack_and rd ra 0 0 h 0xF 0 0 0xF 0xFFFF
  rw [pack_eq_append 0 0 0 0 h, show (0xF00FFFFF : Word32) = (0xF : BitVec 4) ++ (0 : BitVec 4) ++ (0 : BitVec 4) ++ (0xF : BitVec 4) ++ (0xFFFF : BitVec 16) from by decide, this]
  have : BitVec.ofNat 4 op &&& 15#4 = BitVec.ofNat 4 op := BitVec.and_allOnes
  simp [this]

/-- Forms SSS, SPS and PPP against their mask. -/
theorem mask_sss {op : Nat} (h : op < 16) : pack op rd ra rb 0 &&& 0xF000FFFF = pack op 0 0 0 0 := by
  have := pack_and rd ra rb 0 h 0xF 0 0 0 0xFFFF
  rw [pack_eq_append 0 0 0 0 h, show (0xF000FFFF : Word32) = (0xF : BitVec 4) ++ (0 : BitVec 4) ++ (0 : BitVec 4) ++ (0 : BitVec 4) ++ (0xFFFF : BitVec 16) from by decide, this]
  have : BitVec.ofNat 4 op &&& 15#4 = BitVec.ofNat 4 op := BitVec.and_allOnes
  simp [this]

/-- Form SSI against its mask. -/
theorem mask_ssi {op : Nat} (h : op < 16) : pack op rd ra 0 imm &&& 0xF00F0000 = pack op 0 0 0 0 := by
  have := pack_and rd ra 0 imm h 0xF 0 0 0xF 0
  rw [pack_eq_append 0 0 0 0 h, show (0xF00F0000 : Word32) = (0xF : BitVec 4) ++ (0 : BitVec 4) ++ (0 : BitVec 4) ++ (0xF : BitVec 4) ++ (0 : BitVec 16) from by decide, this]
  have : BitVec.ofNat 4 op &&& 15#4 = BitVec.ofNat 4 op := BitVec.and_allOnes
  simp [this]

theorem exprd : Statement (.exprd rd imm) :=
  of_row ⟨"EXPRD", .ti, 0x10000000, 0xF0FF0000⟩ (by simp [opcodeMap]) (mask_ti rd imm (op := 0x1) (by decide))

theorem logrd : Statement (.logrd rd ra) :=
  of_row ⟨"LOGRD", .ss, 0x20000000, 0xF00FFFFF⟩ (by simp [opcodeMap]) (mask_ss rd ra (op := 0x2) (by decide))

theorem gfadd : Statement (.gfadd rd ra rb) :=
  of_row ⟨"GFADD", .sss, 0x30000000, 0xF000FFFF⟩ (by simp [opcodeMap]) (mask_sss rd ra rb (op := 0x3) (by decide))

theorem gfmul : Statement (.gfmul rd ra rb) :=
  of_row ⟨"GFMUL", .sss, 0x40000000, 0xF000FFFF⟩ (by simp [opcodeMap]) (mask_sss rd ra rb (op := 0x4) (by decide))

theorem gfdiv : Statement (.gfdiv rd ra rb) :=
  of_row ⟨"GFDIV", .sss, 0x50000000, 0xF000FFFF⟩ (by simp [opcodeMap]) (mask_sss rd ra rb (op := 0x5) (by decide))

theorem gfinv : Statement (.gfinv rd ra) :=
  of_row ⟨"GFINV", .ss, 0x60000000, 0xF00FFFFF⟩ (by simp [opcodeMap]) (mask_ss rd ra (op := 0x6) (by decide))

theorem gfpow : Statement (.gfpow rd ra imm) :=
  of_row ⟨"GFPOW", .ssi, 0x70000000, 0xF00F0000⟩ (by simp [opcodeMap]) (mask_ssi rd ra imm (op := 0x7) (by decide))

theorem peval : Statement (.peval rd ra rb) :=
  of_row ⟨"PEVAL", .sps, 0x80000000, 0xF000FFFF⟩ (by simp [opcodeMap]) (mask_sss rd ra rb (op := 0x8) (by decide))

theorem pmult : Statement (.pmult rd ra rb) :=
  of_row ⟨"PMULT", .ppp, 0x90000000, 0xF000FFFF⟩ (by simp [opcodeMap]) (mask_sss rd ra rb (op := 0x9) (by decide))

theorem pdivmod : Statement (.pdivmod rd ra rb) :=
  of_row ⟨"PDIVMOD", .ppp, 0xA0000000, 0xF000FFFF⟩ (by simp [opcodeMap]) (mask_sss rd ra rb (op := 0xA) (by decide))

theorem padd : Statement (.padd rd ra rb) :=
  of_row ⟨"PADD", .ppp, 0xB0000000, 0xF000FFFF⟩ (by simp [opcodeMap]) (mask_sss rd ra rb (op := 0xB) (by decide))

theorem pderiv : Statement (.pderiv rd ra) :=
  of_row ⟨"PDERIV", .pp, 0xC0000000, 0xF00FFFFF⟩ (by simp [opcodeMap]) (mask_ss rd ra (op := 0xC) (by decide))

end Sys2Proof.Laws.WordLegal
end

