-- ==== Sys2Proof/Laws/Polynomial.lean ====
section
/-! SUPPORT. The lengths of the polynomial functions' results. -/

namespace Sys2Proof.Machine

/-- The loop of `norm` leaves at least one coefficient and lengthens nothing but the empty sequence. -/
theorem normFromTop_length (p : Poly) :
    1 ≤ (normFromTop p).length ∧ (normFromTop p).length ≤ max 1 p.length := by
  induction p using normFromTop.induct <;> simp_all [normFromTop]
  grind

/-- `norm` leaves at least one coefficient and lengthens nothing but the empty sequence. -/
theorem norm_length (p : Poly) : 1 ≤ (norm p).length ∧ (norm p).length ≤ max 1 p.length := by
  simpa [norm] using normFromTop_length p.reverse

/-- Accumulating keeps the length. -/
@[simp] theorem accumulate_length (r : Poly) (k : Nat) (v : Byte) : (accumulate r k v).length = r.length := by
  simp [accumulate]

/-- A fold whose every round keeps the length keeps the length. -/
theorem foldl_length {β : Type} (f : Poly → β → Poly) (h : ∀ r b, (f r b).length = r.length) (l : List β) (r : Poly) :
    (l.foldl f r).length = r.length := by
  induction l generalizing r with
  | nil => rfl
  | cons b l ih => simp [ih, h]

/-- `poly_mul` has exactly `len(p) + len(q) - 1` coefficients. -/
theorem polyMul_length (t : Tables) (p q : Poly) : (polyMul t p q).length = p.length + q.length - 1 := by
  unfold polyMul asStated
  rw [foldl_length]
  · simp
  · intro r i
    exact foldl_length _ (fun r j => accumulate_length _ _ _) _ _

/-- The working copy of the division keeps the dividend's length. -/
theorem divWorkingCopy_length (t : Tables) (p q : Poly) : (divWorkingCopy t p q).length = p.length := by
  unfold divWorkingCopy
  apply foldl_length
  intro w i
  unfold divRound
  split
  · rfl
  · apply foldl_length
    intro w' j
    split <;> simp

/-- `poly_divrem` has exactly `len(q) - 1` coefficients when the dividend is not the shorter one. -/
theorem polyDivrem_length (t : Tables) (p q : Poly) (h : q.length ≤ p.length) :
    (polyDivrem t p q).length = q.length - 1 := by
  simp [polyDivrem, asStated, divWorkingCopy_length]
  omega

end Sys2Proof.Machine
end

