-- ==== Sys2Proof/Tests/Slice0.lean ====
section
/-! SUPPORT. The model's own tests. Expected results are the spec's: worked examples of the rules, `40_tables.md` R63 and
R67, and `95_test_vectors.md`. The second half shows, for every statement with hypotheses, that they can be met. -/

-- The tests evaluate the tables in the kernel; one at a time they need a third of the memory.
set_option Elab.async false

namespace Sys2Proof.Tests

open Sys2Proof.Machine

/-! ### Decoding: words written out from the encoding of R46 to R48 -/

theorem test_decode_exprd : decode 0x10000019 = .ok (.exprd 0 25) := by decide
theorem test_decode_logrd : decode 0x20100000 = .ok (.logrd 0 1) := by decide
theorem test_decode_gfadd : decode 0x3A670000 = .ok (.gfadd 10 6 7) := by decide
theorem test_decode_gfmul : decode 0x42010000 = .ok (.gfmul 2 0 1) := by decide
theorem test_decode_gfdiv : decode 0x53210000 = .ok (.gfdiv 3 2 1) := by decide
theorem test_decode_gfinv : decode 0x64000000 = .ok (.gfinv 4 0) := by decide
theorem test_decode_gfpow : decode 0x7100FFFF = .ok (.gfpow 1 0 65535) := by decide
theorem test_decode_peval : decode 0x83120000 = .ok (.peval 3 1 2) := by decide
theorem test_decode_pmult : decode 0x91120000 = .ok (.pmult 1 1 2) := by decide
theorem test_decode_pdivmod : decode 0xA3200000 = .ok (.pdivmod 3 2 0) := by decide
theorem test_decode_padd : decode 0xB0120000 = .ok (.padd 0 1 2) := by decide
theorem test_decode_pderiv : decode 0xC4700000 = .ok (.pderiv 4 7) := by decide

/-- The same bits, field by field: OP 0101, RD 0010, RA 1111, RB 0001, IMM 0. -/
theorem test_decode_gfdiv_bits : decode 0b01010010111100010000000000000000 = .ok (.gfdiv 2 15 1) := by decide

theorem test_encode_gfpow : encode (.gfpow 1 0 8) = 0x71000008 := by decide
theorem test_encode_pderiv : encode (.pderiv 4 7) = 0xC4700000 := by decide
theorem test_gfsub_is_gfadd : encode (gfsub 2 0 1) = 0x32010000 := by decide
theorem test_table_word : decodeTableWord 32 0x70000000 = some (.gfpow 0 0 0) := by decide
theorem test_assembly_text : assemblyText (.gfpow 1 0 8) = "GFPOW s1, s0, #8" := by decide +kernel

/-! ### Ill-formed words, one for each check (R50, `95_test_vectors.md` 2.4) -/

/-- Reserved opcodes 0x0, 0xD, 0xE, 0xF. -/
theorem test_illformed_opcodes : wellFormedWord 0x00000000 = false ∧ wellFormedWord 0xD0000000 = false ∧
    wellFormedWord 0xE0000000 = false ∧ wellFormedWord 0xFFFFFFFF = false := by decide

/-- EXPRD with RA, and with RB, not zero. -/
theorem test_illformed_ti : wellFormedWord 0x10100000 = false ∧ wellFormedWord 0x10010000 = false := by decide

/-- LOGRD, GFINV and PDERIV with RB or IMM not zero. -/
theorem test_illformed_ss : wellFormedWord 0x20010000 = false ∧ wellFormedWord 0x20100001 = false ∧
    wellFormedWord 0x60010000 = false ∧ wellFormedWord 0x60000001 = false ∧
    wellFormedWord 0xC4710000 = false ∧ wellFormedWord 0xC4700001 = false := by decide

/-- The seven three-register commands with IMM not zero. -/
theorem test_illformed_three : wellFormedWord 0x30000001 = false ∧ wellFormedWord 0x40008000 = false ∧
    wellFormedWord 0x50000001 = false ∧ wellFormedWord 0x80000001 = false ∧ wellFormedWord 0x90000001 = false ∧
    wellFormedWord 0xA0000001 = false ∧ wellFormedWord 0xB0000001 = false := by decide

/-- GFPOW with RB not zero. -/
theorem test_illformed_ssi : wellFormedWord 0x70010003 = false := by decide

/-- Their nearest legal words. -/
theorem test_wellformed_nearest : wellFormedWord 0x30000000 = true ∧ wellFormedWord 0x70000003 = true ∧
    wellFormedWord 0xC4700000 = true ∧ wellFormedWord 0x10000200 = true := by decide

/-- The decoder refuses them by name. -/
theorem test_decode_rejects : decode 0xE0000000 = .error .reservedOpcode ∧ decode 0x10100000 = .error .mustBeZero ∧
    decode 0x60010000 = .error .mustBeZero ∧ decode 0x70010003 = .error .mustBeZero := by decide

/-! ### The tables against their listings -/

/-- `40_tables.md` R63, the listing of EXP. -/
theorem test_exp_listing : builtExp.toList =
  [0x01, 0x02, 0x04, 0x08, 0x10, 0x20, 0x40, 0x80, 0x1D, 0x3A, 0x74, 0xE8, 0xCD, 0x87, 0x13, 0x26] ++
  [0x4C, 0x98, 0x2D, 0x5A, 0xB4, 0x75, 0xEA, 0xC9, 0x8F, 0x03, 0x06, 0x0C, 0x18, 0x30, 0x60, 0xC0] ++
  [0x9D, 0x27, 0x4E, 0x9C, 0x25, 0x4A, 0x94, 0x35, 0x6A, 0xD4, 0xB5, 0x77, 0xEE, 0xC1, 0x9F, 0x23] ++
  [0x46, 0x8C, 0x05, 0x0A, 0x14, 0x28, 0x50, 0xA0, 0x5D, 0xBA, 0x69, 0xD2, 0xB9, 0x6F, 0xDE, 0xA1] ++
  [0x5F, 0xBE, 0x61, 0xC2, 0x99, 0x2F, 0x5E, 0xBC, 0x65, 0xCA, 0x89, 0x0F, 0x1E, 0x3C, 0x78, 0xF0] ++
  [0xFD, 0xE7, 0xD3, 0xBB, 0x6B, 0xD6, 0xB1, 0x7F, 0xFE, 0xE1, 0xDF, 0xA3, 0x5B, 0xB6, 0x71, 0xE2] ++
  [0xD9, 0xAF, 0x43, 0x86, 0x11, 0x22, 0x44, 0x88, 0x0D, 0x1A, 0x34, 0x68, 0xD0, 0xBD, 0x67, 0xCE] ++
  [0x81, 0x1F, 0x3E, 0x7C, 0xF8, 0xED, 0xC7, 0x93, 0x3B, 0x76, 0xEC, 0xC5, 0x97, 0x33, 0x66, 0xCC] ++
  [0x85, 0x17, 0x2E, 0x5C, 0xB8, 0x6D, 0xDA, 0xA9, 0x4F, 0x9E, 0x21, 0x42, 0x84, 0x15, 0x2A, 0x54] ++
  [0xA8, 0x4D, 0x9A, 0x29, 0x52, 0xA4, 0x55, 0xAA, 0x49, 0x92, 0x39, 0x72, 0xE4, 0xD5, 0xB7, 0x73] ++
  [0xE6, 0xD1, 0xBF, 0x63, 0xC6, 0x91, 0x3F, 0x7E, 0xFC, 0xE5, 0xD7, 0xB3, 0x7B, 0xF6, 0xF1, 0xFF] ++
  [0xE3, 0xDB, 0xAB, 0x4B, 0x96, 0x31, 0x62, 0xC4, 0x95, 0x37, 0x6E, 0xDC, 0xA5, 0x57, 0xAE, 0x41] ++
  [0x82, 0x19, 0x32, 0x64, 0xC8, 0x8D, 0x07, 0x0E, 0x1C, 0x38, 0x70, 0xE0, 0xDD, 0xA7, 0x53, 0xA6] ++
  [0x51, 0xA2, 0x59, 0xB2, 0x79, 0xF2, 0xF9, 0xEF, 0xC3, 0x9B, 0x2B, 0x56, 0xAC, 0x45, 0x8A, 0x09] ++
  [0x12, 0x24, 0x48, 0x90, 0x3D, 0x7A, 0xF4, 0xF5, 0xF7, 0xF3, 0xFB, 0xEB, 0xCB, 0x8B, 0x0B, 0x16] ++
  [0x2C, 0x58, 0xB0, 0x7D, 0xFA, 0xE9, 0xCF, 0x83, 0x1B, 0x36, 0x6C, 0xD8, 0xAD, 0x47, 0x8E, 0x01] ++
  [0x02, 0x04, 0x08, 0x10, 0x20, 0x40, 0x80, 0x1D, 0x3A, 0x74, 0xE8, 0xCD, 0x87, 0x13, 0x26, 0x4C] ++
  [0x98, 0x2D, 0x5A, 0xB4, 0x75, 0xEA, 0xC9, 0x8F, 0x03, 0x06, 0x0C, 0x18, 0x30, 0x60, 0xC0, 0x9D] ++
  [0x27, 0x4E, 0x9C, 0x25, 0x4A, 0x94, 0x35, 0x6A, 0xD4, 0xB5, 0x77, 0xEE, 0xC1, 0x9F, 0x23, 0x46] ++
  [0x8C, 0x05, 0x0A, 0x14, 0x28, 0x50, 0xA0, 0x5D, 0xBA, 0x69, 0xD2, 0xB9, 0x6F, 0xDE, 0xA1, 0x5F] ++
  [0xBE, 0x61, 0xC2, 0x99, 0x2F, 0x5E, 0xBC, 0x65, 0xCA, 0x89, 0x0F, 0x1E, 0x3C, 0x78, 0xF0, 0xFD] ++
  [0xE7, 0xD3, 0xBB, 0x6B, 0xD6, 0xB1, 0x7F, 0xFE, 0xE1, 0xDF, 0xA3, 0x5B, 0xB6, 0x71, 0xE2, 0xD9] ++
  [0xAF, 0x43, 0x86, 0x11, 0x22, 0x44, 0x88, 0x0D, 0x1A, 0x34, 0x68, 0xD0, 0xBD, 0x67, 0xCE, 0x81] ++
  [0x1F, 0x3E, 0x7C, 0xF8, 0xED, 0xC7, 0x93, 0x3B, 0x76, 0xEC, 0xC5, 0x97, 0x33, 0x66, 0xCC, 0x85] ++
  [0x17, 0x2E, 0x5C, 0xB8, 0x6D, 0xDA, 0xA9, 0x4F, 0x9E, 0x21, 0x42, 0x84, 0x15, 0x2A, 0x54, 0xA8] ++
  [0x4D, 0x9A, 0x29, 0x52, 0xA4, 0x55, 0xAA, 0x49, 0x92, 0x39, 0x72, 0xE4, 0xD5, 0xB7, 0x73, 0xE6] ++
  [0xD1, 0xBF, 0x63, 0xC6, 0x91, 0x3F, 0x7E, 0xFC, 0xE5, 0xD7, 0xB3, 0x7B, 0xF6, 0xF1, 0xFF, 0xE3] ++
  [0xDB, 0xAB, 0x4B, 0x96, 0x31, 0x62, 0xC4, 0x95, 0x37, 0x6E, 0xDC, 0xA5, 0x57, 0xAE, 0x41, 0x82] ++
  [0x19, 0x32, 0x64, 0xC8, 0x8D, 0x07, 0x0E, 0x1C, 0x38, 0x70, 0xE0, 0xDD, 0xA7, 0x53, 0xA6, 0x51] ++
  [0xA2, 0x59, 0xB2, 0x79, 0xF2, 0xF9, 0xEF, 0xC3, 0x9B, 0x2B, 0x56, 0xAC, 0x45, 0x8A, 0x09, 0x12] ++
  [0x24, 0x48, 0x90, 0x3D, 0x7A, 0xF4, 0xF5, 0xF7, 0xF3, 0xFB, 0xEB, 0xCB, 0x8B, 0x0B, 0x16, 0x2C] ++
  [0x58, 0xB0, 0x7D, 0xFA, 0xE9, 0xCF, 0x83, 0x1B, 0x36, 0x6C, 0xD8, 0xAD, 0x47, 0x8E, 0x01, 0x02] := by
  decide +kernel

/-- `40_tables.md` R67, the listing of LOG, entries 1 to 63. -/
theorem test_log_listing_low : builtLog.toList.take 63 =
  [0x00, 0x01, 0x19, 0x02, 0x32, 0x1A, 0xC6, 0x03, 0xDF, 0x33, 0xEE, 0x1B, 0x68, 0xC7, 0x4B] ++
  [0x04, 0x64, 0xE0, 0x0E, 0x34, 0x8D, 0xEF, 0x81, 0x1C, 0xC1, 0x69, 0xF8, 0xC8, 0x08, 0x4C, 0x71] ++
  [0x05, 0x8A, 0x65, 0x2F, 0xE1, 0x24, 0x0F, 0x21, 0x35, 0x93, 0x8E, 0xDA, 0xF0, 0x12, 0x82, 0x45] ++
  [0x1D, 0xB5, 0xC2, 0x7D, 0x6A, 0x27, 0xF9, 0xB9, 0xC9, 0x9A, 0x09, 0x78, 0x4D, 0xE4, 0x72, 0xA6] := by
  decide +kernel

/-- `40_tables.md` R67, the listing of LOG, entries 64 to 127. -/
theorem test_log_listing_second : (builtLog.toList.drop 63).take 64 =
  [0x06, 0xBF, 0x8B, 0x62, 0x66, 0xDD, 0x30, 0xFD, 0xE2, 0x98, 0x25, 0xB3, 0x10, 0x91, 0x22, 0x88] ++
  [0x36, 0xD0, 0x94, 0xCE, 0x8F, 0x96, 0xDB, 0xBD, 0xF1, 0xD2, 0x13, 0x5C, 0x83, 0x38, 0x46, 0x40] ++
  [0x1E, 0x42, 0xB6, 0xA3, 0xC3, 0x48, 0x7E, 0x6E, 0x6B, 0x3A, 0x28, 0x54, 0xFA, 0x85, 0xBA, 0x3D] ++
  [0xCA, 0x5E, 0x9B, 0x9F, 0x0A, 0x15, 0x79, 0x2B, 0x4E, 0xD4, 0xE5, 0xAC, 0x73, 0xF3, 0xA7, 0x57] := by
  decide +kernel

/-- `40_tables.md` R67, the listing of LOG, entries 128 to 191. -/
theorem test_log_listing_third : (builtLog.toList.drop 127).take 64 =
  [0x07, 0x70, 0xC0, 0xF7, 0x8C, 0x80, 0x63, 0x0D, 0x67, 0x4A, 0xDE, 0xED, 0x31, 0xC5, 0xFE, 0x18] ++
  [0xE3, 0xA5, 0x99, 0x77, 0x26, 0xB8, 0xB4, 0x7C, 0x11, 0x44, 0x92, 0xD9, 0x23, 0x20, 0x89, 0x2E] ++
  [0x37, 0x3F, 0xD1, 0x5B, 0x95, 0xBC, 0xCF, 0xCD, 0x90, 0x87, 0x97, 0xB2, 0xDC, 0xFC, 0xBE, 0x61] ++
  [0xF2, 0x56, 0xD3, 0xAB, 0x14, 0x2A, 0x5D, 0x9E, 0x84, 0x3C, 0x39, 0x53, 0x47, 0x6D, 0x41, 0xA2] := by
  decide +kernel

/-- `40_tables.md` R67, the listing of LOG, entries 192 to 255. -/
theorem test_log_listing_high : (builtLog.toList.drop 191).take 64 =
  [0x1F, 0x2D, 0x43, 0xD8, 0xB7, 0x7B, 0xA4, 0x76, 0xC4, 0x17, 0x49, 0xEC, 0x7F, 0x0C, 0x6F, 0xF6] ++
  [0x6C, 0xA1, 0x3B, 0x52, 0x29, 0x9D, 0x55, 0xAA, 0xFB, 0x60, 0x86, 0xB1, 0xBB, 0xCC, 0x3E, 0x5A] ++
  [0xCB, 0x59, 0x5F, 0xB0, 0x9C, 0xA9, 0xA0, 0x51, 0x0B, 0xF5, 0x16, 0xEB, 0x7A, 0x75, 0x2C, 0xD7] ++
  [0x4F, 0xAE, 0xD5, 0xE9, 0xE6, 0xE7, 0xAD, 0xE8, 0x74, 0xD6, 0xF4, 0xEA, 0xA8, 0x50, 0x58, 0xAF] := by
  decide +kernel

/-- `95_test_vectors.md` 2.1. -/
theorem test_times2 : times2 0x40 = 0x80 ∧ times2 0x80 = 0x1D ∧ times2 0x8E = 0x01 ∧ times2 0xFF = 0xE3 := by
  decide +kernel

/-! ### One step on a small state -/

/-- The machine after reset with some registers written. -/
def bench (ss : List (SReg × Byte)) (ps : List (PReg × Poly)) : State :=
  ps.foldl (fun s kp => s.writeP kp.1 kp.2) (ss.foldl (fun s iv => s.writeS iv.1 iv.2) State.reset)

/-- The next state's value of `f`, if the outcome is one. -/
def seen {α : Type} (f : State → α) : Host.Outcome State Fault Refusal → Option α
  | .next t => some (f t)
  | .fault _ => none
  | .refused _ => none

/-- `40_tables.md` R69: EXPRD s0, #511 reads the last guard entry. -/
theorem test_exprd_guard : seen (·.readS 0) (exec (.exprd 0 511) State.reset) = some 2 := by decide +kernel

/-- `95_test_vectors.md` 2.1: EXPRD s0, #512. -/
theorem test_exprd_above : seen (fun t => (t.status, t.fcmd)) (exec (.exprd 0 512) State.reset) =
    some (0x00000007, 0x10000200) := by decide +kernel

/-- R70: LOGRD with source and destination the same register. -/
theorem test_logrd_same : seen (·.readS 0) (exec (.logrd 0 0) (bench [(0, 0x03)] [])) = some 0x19 := by decide +kernel

/-- `95_test_vectors.md` 2.1: LOGRD of 0 leaves its destination alone. -/
theorem test_logrd_zero : seen (fun t => (t.status, t.fcmd, t.readS 0)) (exec (.logrd 0 1) (bench [(0, 7), (1, 0)] [])) =
    some (0x00000003, 0x20100000, 7) := by decide +kernel

/-- R72. -/
theorem test_gfadd : seen (·.readS 2) (exec (.gfadd 2 0 1) (bench [(0, 0x53), (1, 0xCA)] [])) = some 0x99 := by
  decide +kernel

/-- `95_test_vectors.md` 2.2: the largest index, 508. -/
theorem test_gfmul_top : seen (·.readS 2) (exec (.gfmul 2 0 1) (bench [(0, 0x8E), (1, 0x8E)] [])) = some 0x47 := by
  decide +kernel

/-- R74 and S1. -/
theorem test_gfmul : seen (·.readS 2) (exec (.gfmul 2 0 1) (bench [(0, 3), (1, 7)] [])) = some 9 := by decide +kernel

/-- `95_test_vectors.md` 2.2: dividend and divisor are not exchanged. -/
theorem test_gfdiv : seen (·.readS 2) (exec (.gfdiv 2 0 1) (bench [(0, 1), (1, 2)] [])) = some 0x8E := by decide +kernel

/-- R75: 0 divided by 0 faults. -/
theorem test_gfdiv_zero : seen (fun t => (t.status, t.fcmd)) (exec (.gfdiv 2 0 1) (bench [(0, 0), (1, 0)] [])) =
    some (0x00000003, 0x52010000) := by decide +kernel

/-- R78. -/
theorem test_gfinv : seen (·.readS 1) (exec (.gfinv 1 0) (bench [(0, 0x53)] [])) = some 0x8C := by decide +kernel

/-- `95_test_vectors.md` 2.2: GFPOW with an exponent above 255. -/
theorem test_gfpow : seen (·.readS 1) (exec (.gfpow 1 0 256) (bench [(0, 2)] [])) = some 2 := by decide +kernel

/-- R79: 0 to a positive power is 0, and to the power 0 faults. -/
theorem test_gfpow_zero : seen (fun t => (t.readS 1, t.status)) (exec (.gfpow 1 0 1) (bench [(0, 0), (1, 5)] [])) =
    some (0, 0) ∧ seen (fun t => (t.readS 1, t.status)) (exec (.gfpow 1 0 0) (bench [(0, 0), (1, 5)] [])) =
    some (5, 0x00000003) := by decide +kernel

/-- R87. -/
theorem test_peval : seen (·.readS 3) (exec (.peval 3 1 2) (bench [(2, 2)] [(1, [0x01, 0x03, 0x02])])) = some 0x0F := by
  decide +kernel

/-- `95_test_vectors.md` 2.3: PEVAL of an empty register. -/
theorem test_peval_empty : seen (fun t => (t.status, t.fcmd)) (exec (.peval 3 1 2) State.reset) =
    some (0x00000005, 0x83120000) := by decide +kernel

/-- `95_test_vectors.md` 2.3: PADD normalises, whatever its sources. -/
theorem test_padd : seen (·.readP 0) (exec (.padd 0 1 2) (bench [] [(1, [1, 2, 3]), (2, [0, 0, 3])])) = some [1, 2] := by
  decide +kernel

/-- R89: the longer source's top is kept. -/
theorem test_padd_lengths : seen (·.readP 0) (exec (.padd 0 1 2) (bench [] [(1, [1, 2, 3]), (2, [4, 5])])) =
    some [5, 7, 3] := by decide +kernel

/-- `95_test_vectors.md` 2.3: the product's coefficients. -/
theorem test_poly_mul : polyMul builtTables [0x12, 0x34] [0x56, 0x78, 0x9A] = [0xA5, 0x7D, 0xE9, 0xAD] ∧
    polyMul builtTables [0] [1, 2, 3] = [0, 0, 0] := by decide +kernel

/-- R91: [5] times [7], which fits whatever MAXLEN is. -/
theorem test_pmult : seen (·.readP 0) (exec (.pmult 0 1 2) (bench [] [(1, [5]), (2, [7])])) = some [0x1B] := by
  have h : pmultResult builtTables [5] [7] = .ok [0x1B] := by
    have := two_le_maxLen
    rw [pmultResult, if_neg (by simp; omega)]
    decide +kernel
  have e : exec (.pmult 0 1 2) (bench [] [(1, [5]), (2, [7])]) =
      .next ((bench [] [(1, [5]), (2, [7])]).finishP (encode (.pmult 0 1 2)) 0 (pmultResult builtTables [5] [7])) := rfl
  rw [e, h]
  rfl

/-- `95_test_vectors.md` 2.3: the remainder, with the trace's working copy. -/
theorem test_pdivmod : seen (·.readP 0) (exec (.pdivmod 0 1 2) (bench [] [(1, [0x12, 0x34, 0, 0]), (2, [1, 3, 2])])) =
    some [0x22, 0x04] ∧ divWorkingCopy builtTables [0x12, 0x34, 0, 0] [1, 3, 2] = [0x12, 0x02, 0x22, 0x04] := by
  decide +kernel

/-- R93: a divisor of length 1 faults. -/
theorem test_pdivmod_short : seen (·.status) (exec (.pdivmod 0 1 2) (bench [] [(1, [5, 6]), (2, [7])])) =
    some 0x00000005 := by decide +kernel

/-- R95. -/
theorem test_pderiv : seen (·.readP 4) (exec (.pderiv 4 7) (bench [] [(7, [1, 2, 3, 4, 5])])) = some [2, 0, 4] := by
  decide +kernel

/-- `95_test_vectors.md` 2.3: the derivative of a constant. -/
theorem test_pderiv_constant : seen (·.readP 4) (exec (.pderiv 4 7) (bench [] [(7, [5])])) = some [0] := by decide +kernel

/-- R102: createGenPoly(3). -/
theorem test_gen_poly : createGenPoly builtTables 3 = [0x01, 0x07, 0x0E, 0x08] := by decide +kernel

/-- R99. -/
theorem test_reverse : reversePoly [0, 1, 2, 0] = some [2, 1, 0] ∧ reversePoly [0, 0] = none := by decide

/-- R111: the all-zero word as the first thing issued after reset (`95_test_vectors.md` 2.4). -/
theorem test_step_illegal : seen (fun t => (t.status, t.fcmd)) (step (State.reset.withFetchWord 32 0)) =
    some (0x00000009, 0x00000000) := by decide +kernel

/-- The machine idles after reset: the host has asked for nothing. -/
theorem test_step_idle : step State.reset = .next State.reset := rfl

/-- `95_test_vectors.md` P3: after a fault an issue is refused and nothing changes. -/
theorem test_step_halted : seen (fun t => (t.status, t.fcmd, t.readS 4, t.replies))
    (step (((bench [(1, 0x53), (4, 9)] []).raise .divisionByZero 0x62000000).withFetchWord 32 0x34110000)) =
    some (0x00000003, 0x62000000, 9, [.refused]) := by decide +kernel

/-- R126: HostReset clears the record and empties the polynomial registers. -/
theorem test_step_reset : seen (fun t => (t.status, t.fcmd, t.readP 3, t.replies))
    (step { (bench [] [(3, [1])]).raise .invalidDegree 0x83120000 with pending := [.hostReset] }) =
    some (0, 0, [], [.accepted]) := by decide +kernel

/-- `93_implementation_defined.md` U2: a scalar register after reset is the draw itself, no number of the model's. -/
theorem test_reset_draw (i : SReg) : State.reset.readS i = Config.scalarDraw 0 i := by
  simp [State.readS, State.reset, drawnScalars]

/-! ### The hypotheses of the statements can be met -/

/-- The machine halted by a fault. -/
def haltedBench : State := (bench [(1, 0x53)] [(1, [1, 2])]).raise .divisionByZero 0x62000000

/-- A state with one operation to perform. -/
def withOp (s : State) (op : HostOp) : State := { s with pending := [op] }

/-- EncodeDecodeWholeWord, LegalWordsMatchOneRow. -/
theorem witness_legal_word : decode 0xA0120000 = .ok (.pdivmod 0 1 2) ∧ wellFormedWord 0xA0120000 = true := by decide

/-- StepIssuesDecodedCommand: both clauses. -/
theorem witness_issue : (withOp State.reset (.hostIssue 0x32010000)).pending = .hostIssue 0x32010000 :: [] ∧
    (withOp State.reset (.hostIssue 0x32010000)).halted = false ∧ decode 0x32010000 = .ok (.gfadd 2 0 1) ∧
    (withOp haltedBench (.hostIssue 0x32010000)).pending = .hostIssue 0x32010000 :: [] ∧
    (withOp haltedBench (.hostIssue 0x32010000)).halted = true := by decide +kernel

/-- IllegalWordRaisesIllegalCommand. -/
theorem witness_illegal : (withOp State.reset (.hostIssue 0x30000001)).pending = .hostIssue 0x30000001 :: [] ∧
    (withOp State.reset (.hostIssue 0x30000001)).halted = false ∧ wellFormedWord 0x30000001 = false := by decide +kernel

/-- HostWriteSWritesOneRegister: both clauses, at the last register. -/
theorem witness_writeS : (withOp State.reset (.hostWriteS 15 0xFF)).pending = .hostWriteS 15 0xFF :: [] ∧
    (withOp State.reset (.hostWriteS 15 0xFF)).halted = false ∧
    (withOp haltedBench (.hostWriteS 15 0xFF)).halted = true := by decide +kernel

/-- HostWritePWritesOneRegister: admitted at length 0 and at length MAXLEN, refused at MAXLEN + 1 and when halted. -/
theorem witness_writeP (n : Nat) :
    (withOp State.reset (.hostWriteP 15 (List.replicate n 1))).pending = .hostWriteP 15 (List.replicate n 1) :: [] ∧
    (withOp State.reset (.hostWriteP 15 (List.replicate n 1))).halted = false ∧
    ([] : Poly).length ≤ Config.maxLen ∧ (List.replicate Config.maxLen (1 : Byte)).length ≤ Config.maxLen ∧
    Config.maxLen < (List.replicate (Config.maxLen + 1) (1 : Byte)).length ∧
    (withOp haltedBench (.hostWriteP 15 [])).halted = true := by
  exact ⟨rfl, show State.reset.halted = false by decide, by simp, by simp, by simp, show haltedBench.halted = true by
    decide +kernel⟩

/-- HostReadsAnswerAndChangeNothing and HostResetGivesResetValues: each operation pending, the core halted or not. -/
theorem witness_reads : (withOp haltedBench (.hostReadS 0)).pending = .hostReadS 0 :: [] ∧
    (withOp haltedBench (.hostReadP 1)).pending = .hostReadP 1 :: [] ∧
    (withOp haltedBench .hostReadStatus).pending = .hostReadStatus :: [] ∧
    (withOp haltedBench .hostReadFCMD).pending = .hostReadFCMD :: [] ∧
    (withOp haltedBench .hostReset).pending = .hostReset :: [] := by decide +kernel

/-- The table statements: indices at both ends of each range, elements at both ends, and the bounds under which a read
can be written. -/
theorem witness_tables : (0 : Nat) < 255 ∧ (254 : Nat) < 255 ∧ (1 : Byte) ≠ 0 ∧ (0xFF : Byte) ≠ 0 ∧
    readLog builtTables 0x8E (by decide) < 512 ∧ readExp builtTables 254 ≠ 0 ∧ (254 : Fin 512).val < 255 := by
  decide +kernel

/-- ExprdReadsExpEntry: where the clauses meet; the tables as constructed. -/
theorem witness_exprd : (511 : Imm).toNat < 512 ∧ 511 < (512 : Imm).toNat ∧ State.reset.TablesBuilt := by
  refine ⟨by decide, by decide, rfl⟩

/-- LogrdReadsLogEntry, GfdivWritesQuotient, GfinvWritesInverse, GfpowWritesPower: a zero and a nonzero source, a zero and a
nonzero exponent. -/
theorem witness_zero_sources : (bench [(0, 0), (1, 1)] []).readS 0 = 0 ∧ (bench [(0, 0), (1, 1)] []).readS 1 ≠ 0 ∧
    (0 : Imm).toNat = 0 ∧ ¬ ((bench [(0, 0), (1, 1)] []).readS 0 = 0 ∧ (1 : Imm).toNat = 0) ∧
    ¬ ((bench [(0, 0), (1, 1)] []).readS 1 = 0 ∧ (0 : Imm).toNat = 0) ∧ (bench [(0, 0), (1, 1)] []).TablesBuilt := by
  refine ⟨by decide +kernel, by decide +kernel, by decide, by decide +kernel, by decide +kernel, rfl⟩

/-- PevalWritesValue, PaddWritesSum, PmultWritesProduct, PdivmodWritesRemainder, PderivWritesDerivative and
EmptySourceRaisesInvalidDegree: an empty and a nonempty source, divisors of length 1, 2 and longer than the dividend, a
product that fits. -/
theorem witness_poly_sources : (bench [] [(1, [1, 2]), (2, [3]), (3, [1, 0, 1])]).readP 0 = [] ∧
    (bench [] [(1, [1, 2]), (2, [3]), (3, [1, 0, 1])]).readP 1 = [1, 2] ∧
    (bench [] [(1, [1, 2]), (2, [3]), (3, [1, 0, 1])]).readP 2 = [3] ∧
    (bench [] [(1, [1, 2]), (2, [3]), (3, [1, 0, 1])]).readP 3 = [1, 0, 1] ∧
    [(1 : Byte), 2].length + [(3 : Byte)].length - 1 ≤ Config.maxLen := by
  refine ⟨by decide +kernel, by decide +kernel, by decide +kernel, by decide +kernel, two_le_maxLen⟩

/-- PmultWritesProduct: sources that a host can write, whose product is one coefficient too long, and one that fits
exactly. -/
theorem witness_capacity :
    (bench [] [(1, List.replicate Config.maxLen 1), (2, [1, 1])]).readP 1 = List.replicate Config.maxLen 1 ∧
    (bench [] [(1, List.replicate Config.maxLen 1), (2, [1, 1])]).readP 2 = [1, 1] ∧
    List.replicate Config.maxLen (1 : Byte) ≠ [] ∧
    Config.maxLen < (List.replicate Config.maxLen (1 : Byte)).length + [(1 : Byte), 1].length - 1 ∧
    (List.replicate Config.maxLen (1 : Byte)).length + [(1 : Byte)].length - 1 ≤ Config.maxLen := by
  have := two_le_maxLen
  refine ⟨rfl, rfl, ?_, by simp, by simp⟩
  intro h
  have := congrArg List.length h
  simp at this
  omega

/-- The field statements: a zero and a nonzero operand, exponents 0, 1 and the largest, the bounds on the indices. -/
theorem witness_field : (0 : Byte) = 0 ∧ (0x8E : Byte) ≠ 0 ∧ (65535 : Nat) ≤ 65535 ∧ 0 < 1 ∧
    readLog builtTables 0x8E (by decide) + readLog builtTables 0x8E (by decide) < 512 ∧
    gfDiv builtTables 0 1 = .ok 0 ∧ gfMul builtTables 0 1 = 0 := by decide +kernel

/-- The polynomial statements: nonempty and normalised sequences, a monic divisor as long as its dividend and a shorter
one. -/
theorem witness_polynomials : ([1, 2] : Poly) ≠ [] ∧ Normalised [1, 2] ∧ ([1, 2] : Poly) ≠ [0] ∧
    2 ≤ ([1, 3] : Poly).length ∧ ([1, 3] : Poly).length ≤ ([1, 2] : Poly).length ∧
    ([1, 3] : Poly).length ≤ ([1, 2, 5] : Poly).length ∧ coeff [1, 3] 0 = 1 := by
  refine ⟨by decide, ⟨by decide, by decide⟩, by decide, by decide, by decide, by decide, by decide⟩

/-- StepKeepsInvariant, TablesAreNeverWritten: a state that meets the invariant, and its step. -/
theorem witness_invariant : (bench [] []).Inv ∧ step (withOp State.reset .hostReset) =
    .next (hostReset { State.reset with pending := [] }) := by
  refine ⟨⟨rfl, ?_, .inl ⟨rfl, rfl⟩⟩, rfl⟩
  intro k
  simp [bench, State.readP, State.reset]

/-- ReachableStatesAreConsistent: a run of three operations from reset that ends halted. -/
theorem witness_run : seen (fun t => (t.status, t.fcmd)) (core.run 3 { State.reset with pending :=
    [.hostWriteS 0 0, .hostIssue 0x62000000, .hostReadStatus] }) = some (0x00000003, 0x62000000) := by decide +kernel

/-- CommandNeverEmptiesRegister: a command after which a register is empty. -/
theorem witness_empty_register : seen (·.readP 5) (exec (.pderiv 4 7) (bench [] [(7, [5])])) = some [] := by
  decide +kernel

/-- ResultDependsOnSourcesOnly: two different states that agree on a command's sources. -/
theorem witness_sources : (bench [(0, 1), (1, 2), (5, 3)] []).halted = false ∧ (bench [(0, 1), (1, 2), (5, 4)] []).halted = false ∧
    SourcesAgree (.gfadd 2 0 1) (bench [(0, 1), (1, 2), (5, 3)] []) (bench [(0, 1), (1, 2), (5, 4)] []) := by
  refine ⟨by decide +kernel, by decide +kernel, by decide +kernel, by decide +kernel⟩

/-- DivisionByZeroExactly, InvalidDegreeExactly, IndexAndCapacityFaultsExactly: a core that is not halted.
OnlyResetLeavesHaltedState: a halted core, with reset and with another operation pending. -/
theorem witness_halted : State.reset.halted = false ∧ (withOp haltedBench .hostReset).halted = true ∧
    (withOp haltedBench .hostReset).pending.head? = some .hostReset ∧
    (withOp haltedBench .hostReadStatus).pending.head? ≠ some .hostReset ∧
    seen (·.halted) (step (withOp haltedBench .hostReset)) = some false := by decide +kernel

/-- FaultEntryIsWholeEffect: an issue that halts the core and one that does not. -/
theorem witness_fault_entry : (withOp (bench [(0, 0)] []) (.hostIssue 0x61000000)).halted = false ∧
    seen (·.halted) (step (withOp (bench [(0, 0)] []) (.hostIssue 0x61000000))) = some true ∧
    seen (·.halted) (step (withOp (bench [(0, 1)] []) (.hostIssue 0x61000000))) = some false := by decide +kernel

/-- FaultsArePrecise: a run without a reset that ends halted. -/
theorem witness_precise : HostOp.hostReset ∉ ({ bench [(0, 0)] [] with pending :=
      [.hostIssue 0x11000000, .hostIssue 0x62000000, .hostIssue 0x34110000] } : State).pending ∧
    seen (fun t => (t.halted, t.readS 1)) (core.run 3 { bench [(0, 0)] [] with pending :=
      [.hostIssue 0x11000000, .hostIssue 0x62000000, .hostIssue 0x34110000] }) = some (true, 1) := by decide +kernel

/-- ReverseTrimsAndReverses: a sequence with a highest nonzero coefficient, at index 0 and above, and one with none. -/
theorem witness_reverse : (2 < ([0, 1, 2, 0] : Poly).length ∧ coeff [0, 1, 2, 0] 2 ≠ 0 ∧
      ∀ j, 2 < j → coeff [0, 1, 2, 0] j = 0) ∧ coeff [5] 0 ≠ 0 ∧ ∀ c ∈ ([0, 0] : Poly), c = 0 := by
  refine ⟨⟨by decide, by decide, ?_⟩, by decide, by decide⟩
  intro j hj
  obtain _ | _ | _ | _ | j := j
  · omega
  · omega
  · omega
  · rfl
  · rfl

/-- GeneratorPolynomialsAreProducts: two orders of the same positions. -/
theorem witness_perm : [3, 1, 1].Perm [1, 3, 1] := by decide

end Sys2Proof.Tests
end

section
/-! PROOFS. Which cause each result can carry, and that a command changes its destination or enters a fault. -/

namespace Sys2Proof.Machine

/-! ### The causes a result can carry, with their conditions -/

/-- EXPRD's result is a fault exactly above index 511 (`40_tables.md` R69). -/
theorem expEntry_eq_error_iff (t : Tables) (i : Nat) (c : Cause) :
    expEntry t i = .error c ↔ 511 < i ∧ c = .indexOutOfRange := by
  have hlt : 511 < i ↔ ¬ i < Config.expSize := by simp only [Config.expSize]; omega
  by_cases h : i < Config.expSize <;> simp [expEntry, hlt, h, @eq_comm _ c]

/-- LOGRD's result is a fault exactly on 0 (`40_tables.md` R70). -/
theorem logEntry_eq_error_iff (t : Tables) (x : Byte) (c : Cause) :
    logEntry t x = .error c ↔ x = 0 ∧ c = .divisionByZero := by
  unfold logEntry
  split
  case isTrue h => simp [h, @eq_comm _ c]
  case isFalse h => exact iff_of_false nofun fun e => h e.1

/-- `gf_div` faults exactly on a zero divisor (`41_field_ops.md` R75). -/
theorem gfDiv_eq_error_iff (t : Tables) (x y : Byte) (c : Cause) :
    gfDiv t x y = .error c ↔ y = 0 ∧ c = .divisionByZero := by
  unfold gfDiv
  split
  case isTrue h => simp [h, @eq_comm _ c]
  case isFalse h => exact iff_of_false (by split <;> nofun) fun e => h e.1

/-- `gf_inv` faults exactly on 0 (`41_field_ops.md` R77). -/
theorem gfInv_eq_error_iff (t : Tables) (x : Byte) (c : Cause) :
    gfInv t x = .error c ↔ x = 0 ∧ c = .divisionByZero := by
  unfold gfInv
  split
  case isTrue h => simp [h, @eq_comm _ c]
  case isFalse h => exact iff_of_false nofun fun e => h e.1

/-- `gf_pow` faults exactly on 0 to the 0 (`41_field_ops.md` R79). -/
theorem gfPow_eq_error_iff (t : Tables) (x : Byte) (n : Nat) (c : Cause) :
    gfPow t x n = .error c ↔ (x = 0 ∧ n = 0) ∧ c = .divisionByZero := by
  unfold gfPow
  split
  case isTrue h => by_cases hn : n = 0 <;> simp [h, hn, @eq_comm _ c]
  case isFalse h => exact iff_of_false nofun fun e => h e.1.1

/-- A polynomial source faults exactly when it is empty (`42_poly_ops.md` R84). -/
theorem State.polySource_eq_error_iff (s : State) (k : PReg) (c : Cause) :
    s.polySource k = .error c ↔ s.readP k = [] ∧ c = .invalidDegree := by
  obtain ⟨h, e⟩ | ⟨h, e⟩ := s.polySource_cases k <;> simp [e, h, @eq_comm _ c]

/-- Two polynomial sources fault exactly when one of them is empty (`42_poly_ops.md` R84). -/
theorem State.polySources_eq_error_iff (s : State) (ra rb : PReg) (c : Cause) :
    s.polySources ra rb = .error c ↔ (s.readP ra = [] ∨ s.readP rb = []) ∧ c = .invalidDegree := by
  obtain ⟨h, e⟩ | ⟨⟨ha, hb⟩, e⟩ := s.polySources_cases ra rb
  · simp [e, h, @eq_comm _ c]
  · simp [e, ha, hb]

/-- PMULT's own test faults exactly on a product longer than MAXLEN (`42_poly_ops.md` R91). -/
theorem pmultResult_eq_error_iff (t : Tables) (p q : Poly) (c : Cause) :
    pmultResult t p q = .error c ↔ Config.maxLen < p.length + q.length - 1 ∧ c = .capacityExceeded := by
  by_cases h : p.length + q.length - 1 > Config.maxLen <;> simp [pmultResult, h, @eq_comm _ c]

/-- PDIVMOD's own tests fault exactly on a longer divisor or one of length 1 (`42_poly_ops.md` R93). -/
theorem pdivmodResult_eq_error_iff (t : Tables) (p q : Poly) (c : Cause) :
    pdivmodResult t p q = .error c ↔ (p.length < q.length ∨ q.length = 1) ∧ c = .invalidDegree := by
  by_cases hl : q.length > p.length
  · simp [pdivmodResult, hl, @eq_comm _ c]
  · by_cases h1 : q.length = 1 <;> simp [pdivmodResult, hl, h1, @eq_comm _ c]

/-- A result computed from sources is a fault when the sources are, or when they are there and the computation is. -/
theorem bind_eq_error_iff {α β : Type} (x : Except Cause α) (f : α → Except Cause β) (c : Cause) :
    x.bind f = .error c ↔ x = .error c ∨ ∃ a, x = .ok a ∧ f a = .error c := by
  cases x <;> simp [Except.bind]

/-! ### How a command ends -/

/-- PEVAL's result, from its source (`42_poly_ops.md` R84, R87). -/
theorem exec_peval (rd : SReg) (ra : PReg) (rb : SReg) (s : State) :
    exec (.peval rd ra rb) s = .next (s.finishS (encode (.peval rd ra rb)) rd
      ((s.polySource ra).bind fun p => .ok (polyEval s.tables p (s.readS rb)))) := by
  simp only [exec, execPeval]
  cases s.polySource ra <;> rfl

/-- PMULT's result, from its sources (R84, R91). -/
theorem exec_pmult (rd ra rb : PReg) (s : State) :
    exec (.pmult rd ra rb) s = .next (s.finishP (encode (.pmult rd ra rb)) rd
      ((s.polySources ra rb).bind fun pq => pmultResult s.tables pq.1 pq.2)) := by
  simp only [exec, execPmult]
  cases s.polySources ra rb <;> rfl

/-- PDIVMOD's result, from its sources (R84, R93). -/
theorem exec_pdivmod (rd ra rb : PReg) (s : State) :
    exec (.pdivmod rd ra rb) s = .next (s.finishP (encode (.pdivmod rd ra rb)) rd
      ((s.polySources ra rb).bind fun pq => pdivmodResult s.tables pq.1 pq.2)) := by
  simp only [exec, execPdivmod]
  cases s.polySources ra rb <;> rfl

/-- PADD's result, from its sources (R84, R89). -/
theorem exec_padd (rd ra rb : PReg) (s : State) :
    exec (.padd rd ra rb) s = .next (s.finishP (encode (.padd rd ra rb)) rd
      ((s.polySources ra rb).bind fun pq => .ok (polyAdd pq.1 pq.2))) := by
  simp only [exec, execPadd]
  cases s.polySources ra rb <;> rfl

/-- PDERIV's result, from its source (R84, R95). -/
theorem exec_pderiv (rd ra : PReg) (s : State) :
    exec (.pderiv rd ra) s = .next (s.finishP (encode (.pderiv rd ra)) rd
      ((s.polySource ra).bind fun p => .ok (polyDeriv p))) := by
  simp only [exec, execPderiv]
  cases s.polySource ra <;> rfl

/-- Every command ends as `finishS` or `finishP` on its own word and destination, with a result whose cause, if it is a
fault, is one the command's row lists. -/
theorem exec_cases_causesOf (i : Instr) (s : State) :
    (∃ rd r, scalarDest i = some rd ∧ exec i s = .next (s.finishS (encode i) rd r) ∧
        ∀ c, r = .error c → c ∈ causesOf i) ∨
      ∃ rd r, polyDest i = some rd ∧ exec i s = .next (s.finishP (encode i) rd r) ∧
        ∀ c, r = .error c → c ∈ causesOf i := by
  cases i with
  | exprd rd imm =>
    refine .inl ⟨rd, _, rfl, rfl, fun c h => ?_⟩
    obtain ⟨hi, rfl⟩ := (expEntry_eq_error_iff _ _ _).mp h
    simp [causesOf, hi]
  | logrd rd ra =>
    refine .inl ⟨rd, _, rfl, rfl, fun c h => ?_⟩
    simpa [causesOf] using ((logEntry_eq_error_iff _ _ _).mp h).2
  | gfadd rd ra rb => exact .inl ⟨rd, _, rfl, rfl, nofun⟩
  | gfmul rd ra rb => exact .inl ⟨rd, _, rfl, rfl, nofun⟩
  | gfdiv rd ra rb =>
    refine .inl ⟨rd, _, rfl, rfl, fun c h => ?_⟩
    simpa [causesOf] using ((gfDiv_eq_error_iff _ _ _ _).mp h).2
  | gfinv rd ra =>
    refine .inl ⟨rd, _, rfl, rfl, fun c h => ?_⟩
    simpa [causesOf] using ((gfInv_eq_error_iff _ _ _).mp h).2
  | gfpow rd ra imm =>
    refine .inl ⟨rd, _, rfl, rfl, fun c h => ?_⟩
    obtain ⟨⟨-, hn⟩, rfl⟩ := (gfPow_eq_error_iff _ _ _ _).mp h
    simp [causesOf, hn]
  | peval rd ra rb =>
    refine .inl ⟨rd, _, rfl, exec_peval rd ra rb s, fun c h => ?_⟩
    obtain h | ⟨p, -, h⟩ := (bind_eq_error_iff _ _ _).mp h
    · simp [causesOf, ((s.polySource_eq_error_iff _ _).mp h).2]
    · cases h
  | pmult rd ra rb =>
    refine .inr ⟨rd, _, rfl, exec_pmult rd ra rb s, fun c h => ?_⟩
    obtain h | ⟨pq, -, h⟩ := (bind_eq_error_iff _ _ _).mp h
    · simp [causesOf, ((s.polySources_eq_error_iff _ _ _).mp h).2]
    · simp [causesOf, ((pmultResult_eq_error_iff _ _ _ _).mp h).2]
  | pdivmod rd ra rb =>
    refine .inr ⟨rd, _, rfl, exec_pdivmod rd ra rb s, fun c h => ?_⟩
    obtain h | ⟨pq, -, h⟩ := (bind_eq_error_iff _ _ _).mp h
    · simp [causesOf, ((s.polySources_eq_error_iff _ _ _).mp h).2]
    · simp [causesOf, ((pdivmodResult_eq_error_iff _ _ _ _).mp h).2]
  | padd rd ra rb =>
    refine .inr ⟨rd, _, rfl, exec_padd rd ra rb s, fun c h => ?_⟩
    obtain h | ⟨pq, -, h⟩ := (bind_eq_error_iff _ _ _).mp h
    · simp [causesOf, ((s.polySources_eq_error_iff _ _ _).mp h).2]
    · cases h
  | pderiv rd ra =>
    refine .inr ⟨rd, _, rfl, exec_pderiv rd ra s, fun c h => ?_⟩
    obtain h | ⟨p, -, h⟩ := (bind_eq_error_iff _ _ _).mp h
    · simp [causesOf, ((s.polySource_eq_error_iff _ _).mp h).2]
    · cases h

/-- Settles O46: a command ends by `finishS` or `finishP`, and each of these writes the destination alone or enters the
fault its result carries. -/
theorem commandChangesOnlyItsDestination : Obligations.CommandChangesOnlyItsDestination := by
  intro i s
  obtain ⟨rd, r, hd, he, hc⟩ | ⟨rd, r, hd, he, hc⟩ := exec_cases_causesOf i s
  · refine ⟨_, he, ?_⟩
    obtain ⟨v, -, hw⟩ | ⟨c, hr, hf⟩ := s.finishS_cases (encode i) rd r
    · exact .inl ⟨rd, v, hd, hw⟩
    · exact .inr (.inr ⟨c, hc c hr, hf⟩)
  · refine ⟨_, he, ?_⟩
    obtain ⟨p, -, hw⟩ | ⟨c, hr, hf⟩ := s.finishP_cases (encode i) rd r
    · exact .inr (.inl ⟨rd, p, hd, hw⟩)
    · exact .inr (.inr ⟨c, hc c hr, hf⟩)

end Sys2Proof.Machine
end

section
/-! PROOFS. The tables against the powers of the generator (`40_tables.md` R59 to R64), and the two commands that read
them (R69, R70). -/

namespace Sys2Proof.Machine

/-! ### The step of the construction, R60 -/

/-- A number has more than `k` bits exactly when it reaches `2^k` (`00_scope.md` R7). -/
theorem lt_bitlen_iff (k t : Nat) : k < bitlen t ↔ 2 ^ k ≤ t := by
  unfold bitlen
  split
  case isTrue h => simp [h]
  case isFalse h => rw [Nat.lt_succ_iff, Nat.le_log2 h]

/-- The modulus has nine bits (`00_scope.md` R6). -/
theorem bitlen_modulus : bitlen Config.modulus = 9 := by decide

/-- The reduction loop stops at once on at most eight bits. -/
theorem reduceByModulus_of_lt {t : Nat} (h : t < 256) (fuel : Nat) : reduceByModulus fuel t = t := by
  have hlen : ¬ 8 < bitlen t := by rw [lt_bitlen_iff]; omega
  cases fuel with
  | zero => rfl
  | succ fuel => rw [reduceByModulus, bitlen_modulus, if_neg (by omega)]

/-- Two numbers of exactly nine bits differ in the low eight bits only. -/
theorem xor_lt_of_nine_bits {a b : Nat} (ha : 256 ≤ a) (ha' : a < 512) (hb : 256 ≤ b) (hb' : b < 512) :
    a ^^^ b < 256 := by
  refine Nat.lt_pow_two_of_testBit (n := 8) _ fun i hi => ?_
  obtain rfl | hi : i = 8 ∨ 9 ≤ i := by omega
  · simp [Nat.testBit_xor, Nat.testBit_of_two_pow_le_and_two_pow_add_one_gt (i := 8) ha ha',
      Nat.testBit_of_two_pow_le_and_two_pow_add_one_gt (i := 8) hb hb']
  · have h512 : 512 ≤ 2 ^ i := Nat.pow_le_pow_right (n := 2) (by omega) hi
    simp [Nat.testBit_xor, Nat.testBit_lt_two_pow (ha'.trans_le h512), Nat.testBit_lt_two_pow (hb'.trans_le h512)]

/-- On nine bits the reduction loop runs once. -/
theorem reduceByModulus_of_le {t : Nat} (h : 256 ≤ t) (h' : t < 512) (fuel : Nat) :
    reduceByModulus (fuel + 1) t = t ^^^ 0x11D := by
  have hlow : 8 < bitlen t := (lt_bitlen_iff 8 t).mpr h
  have hhigh : ¬ 9 < bitlen t := by rw [lt_bitlen_iff]; omega
  have hlen : bitlen t = 9 := by omega
  rw [reduceByModulus, bitlen_modulus, hlen, if_pos (le_refl 9)]
  exact reduceByModulus_of_lt (xor_lt_of_nine_bits h h' (by decide) (by decide)) fuel

/-- `times2` in numbers: double, and xor with the modulus when the double has nine bits (R60). -/
theorem times2_toNat (v : Byte) :
    (times2 v).toNat = if 256 ≤ 2 * v.toNat then (2 * v.toNat) ^^^ 0x11D else 2 * v.toNat := by
  have hv := v.isLt
  have hshift : v.toNat <<< 1 = 2 * v.toNat := Nat.shiftLeft_succ _ 0
  rw [times2, BitVec.toNat_ofNat, hshift]
  split
  case isTrue h =>
    rw [reduceByModulus_of_le h (by omega)]
    exact Nat.mod_eq_of_lt (xor_lt_of_nine_bits h (by omega) (by decide) (by decide))
  case isFalse h =>
    rw [reduceByModulus_of_lt (by omega)]
    exact Nat.mod_eq_of_lt (by omega)

/-- A nonzero element is nonzero as a number. -/
theorem toNat_ne_zero {v : Byte} (h : v ≠ 0) : v.toNat ≠ 0 := fun e => h (BitVec.eq_of_toNat_eq e)

/-- `times2` never makes 0 of a nonzero element: the modulus is odd and the double is even. -/
theorem times2_ne_zero {v : Byte} (h : v ≠ 0) : times2 v ≠ 0 := by
  have hv := toNat_ne_zero h
  intro e
  have hnat : (times2 v).toNat = 0 := congrArg BitVec.toNat e
  rw [times2_toNat] at hnat
  split at hnat
  · have := Nat.xor_eq_zero_iff.mp hnat
    omega
  · omega

/-- Settles O13: `times2_toNat` is the whole step, and a nonzero element stays one. -/
theorem timesTwoShiftsAndReduces : Obligations.TimesTwoShiftsAndReduces := by
  intro v hv
  have hne := toNat_ne_zero (times2_ne_zero hv)
  have := (times2 v).isLt
  exact ⟨times2_toNat v, by omega, by omega⟩

/-- The product by the indeterminate in numbers: its 0x1D is the modulus without the bit that falls out. -/
theorem mulByX_toNat (v : Byte) :
    (mulByX v).toNat = (if 256 ≤ 2 * v.toNat then (2 * v.toNat) ^^^ 0x11D else 2 * v.toNat) % 256 := by
  have hbit : v.getLsbD 7 = decide (256 ≤ 2 * v.toNat) := by
    have hmsb : v.getLsbD 7 = v.msb := rfl
    rw [hmsb, BitVec.msb_eq_decide, decide_eq_decide]
    omega
  have hshift : v.toNat <<< 1 = 2 * v.toNat := Nat.shiftLeft_succ _ 0
  simp only [mulByX, hbit, decide_eq_true_eq, BitVec.toNat_xor, BitVec.toNat_shiftLeft, hshift]
  split
  · exact (Nat.xor_mod_two_pow (a := 2 * v.toNat) (b := 0x11D) (n := 8)).symm
  · exact Nat.xor_zero _

/-- The construction's step is the product by the indeterminate, which is written without the reduction loop. -/
theorem times2_eq_mulByX : times2 = mulByX := by
  funext v
  apply BitVec.eq_of_toNat_eq
  rw [mulByX_toNat, ← times2_toNat, Nat.mod_eq_of_lt (times2 v).isLt]

/-! ### The powers of the generator, R62 and R64 -/

/-- Round `i` of the construction holds the generator to the `i`. -/
theorem times2_iterate (i : Nat) : times2^[i] 1 = generatorTo i := by rw [times2_eq_mulByX, generatorTo]

/-- No power of the generator is 0. -/
theorem generatorTo_ne_zero (i : Nat) : generatorTo i ≠ 0 := by
  induction i with
  | zero => decide
  | succ i ih =>
    rw [← times2_iterate] at ih
    rw [← times2_iterate, Function.iterate_succ_apply']
    exact times2_ne_zero ih

/-- The powers of the generator come back to 1 after 255 rounds. -/
theorem generator_period : Function.IsPeriodicPt mulByX 255 1 := by decide +kernel

/-- An exponent counts modulo 255. -/
theorem generatorTo_mod (i : Nat) : generatorTo (i % 255) = generatorTo i := generator_period.iterate_mod_apply i

theorem generatorTo_add_period (i : Nat) : generatorTo (i + 255) = generatorTo i := by
  rw [← generatorTo_mod (i + 255), Nat.add_mod_right, generatorTo_mod]

/-- 255 is the least period: a smaller one would divide 15, 51 or 85, and at none of these is the power 1. -/
theorem generator_minimalPeriod : Function.minimalPeriod mulByX (1 : Byte) = 255 := by
  have hdvd : Function.minimalPeriod mulByX (1 : Byte) ∣ 255 := generator_period.minimalPeriod_dvd
  have hbelow : ∀ d ∈ Nat.divisors 255, d = 255 ∨ ∃ k ∈ [15, 51, 85], d ∣ k := by decide +kernel
  have hnot : ∀ k ∈ [15, 51, 85], ¬ Function.IsPeriodicPt mulByX k (1 : Byte) := by decide +kernel
  obtain h | ⟨k, hk, h⟩ := hbelow _ (Nat.mem_divisors.mpr ⟨hdvd, by decide⟩)
  · exact h
  · exact absurd (Function.isPeriodicPt_iff_minimalPeriod_dvd.mpr h) (hnot k hk)

/-- The first 255 powers are distinct. -/
theorem generatorTo_inj {i j : Nat} (hi : i < 255) (hj : j < 255) (h : generatorTo i = generatorTo j) : i = j := by
  have hinj := Function.iterate_injOn_Iio_minimalPeriod (f := mulByX) (x := (1 : Byte))
  rw [generator_minimalPeriod] at hinj
  exact hinj hi hj h

/-- There are 255 nonzero elements. -/
theorem card_nonzero : (Finset.univ.erase (0 : Byte)).card = 255 := by
  have : Fintype.card Byte = 256 := by
    rw [← FinEnum.card_eq_fintypeCard]
    rfl
  rw [Finset.card_erase_of_mem (Finset.mem_univ _), Finset.card_univ, this]

/-- Every nonzero element is one of the first 255 powers: these are 255 distinct nonzero elements, and there are no
more. -/
theorem exists_generatorTo_eq {x : Byte} (h : x ≠ 0) : ∃ i < 255, generatorTo i = x := by
  have hsurj := Finset.surjOn_of_injOn_of_card_le (s := Finset.range 255) (t := Finset.univ.erase (0 : Byte)) generatorTo
    (fun i _ => Finset.mem_coe.mpr (Finset.mem_erase.mpr ⟨generatorTo_ne_zero i, Finset.mem_univ _⟩))
    (fun i hi j hj => generatorTo_inj (Finset.mem_range.mp hi) (Finset.mem_range.mp hj))
    (by rw [card_nonzero, Finset.card_range])
  obtain ⟨i, hi, hx⟩ := hsurj (Finset.mem_coe.mpr (Finset.mem_erase.mpr ⟨h, Finset.mem_univ x⟩))
  exact ⟨i, Finset.mem_range.mp hi, hx⟩

/-! ### The tables as the construction leaves them -/

/-- The values of the loop are the iterates of its step. -/
theorem loopValues_eq_iterate (n : Nat) (v : Byte) : loopValues n v = List.iterate mulByX v n := by
  induction n generalizing v with
  | zero => rfl
  | succ n ih => rw [loopValues, ih, times2_eq_mulByX, List.iterate]

/-- Round `i` of the loop has the generator to the `i`. -/
theorem loopValues_getElem {i n : Nat} (h : i < (loopValues n 1).length) : (loopValues n 1)[i] = generatorTo i := by
  simp only [loopValues_eq_iterate, List.getElem_iterate, generatorTo]

/-- The loop's 255 values are distinct. -/
theorem loopValues_nodup : (loopValues 255 1).Nodup := by
  refine List.nodup_iff_injective_getElem.mpr fun i j h => Fin.ext ?_
  simp only [loopValues_getElem] at h
  exact generatorTo_inj (i.isLt.trans_eq (loopValues_length 255 1)) (j.isLt.trans_eq (loopValues_length 255 1)) h

/-- The round that wrote `x` is the first place of `x` among the values. -/
theorem roundOf_eq_idxOf (x : Byte) (l : List Byte) (k : Nat) : roundOf x l k = k + l.idxOf x := by
  induction l generalizing k with
  | nil => rfl
  | cons v rest ih =>
    by_cases h : v = x
    · simp [roundOf, h]
    · simp [roundOf, h, ih]
      omega

/-- What the construction writes to EXP is one run of 512 rounds: after each 255 the value is 1 again, and the guards 1
and 2 are the two rounds that follow (R59, R61). -/
theorem expValues_eq_iterate : loopValues 255 1 ++ loopValues 255 1 ++ [1, 2] = List.iterate mulByX 1 512 := by
  have hperiod : mulByX^[255] 1 = 1 := generator_period
  have hguards : [1, 2] = List.iterate mulByX 1 2 := by decide
  calc loopValues 255 1 ++ loopValues 255 1 ++ [1, 2]
    _ = List.iterate mulByX 1 255 ++ (List.iterate mulByX (mulByX^[255] 1) 255 ++
          List.iterate mulByX (mulByX^[255] (mulByX^[255] 1)) 2) := by
      rw [loopValues_eq_iterate, hguards, hperiod, hperiod, List.append_assoc]
    _ = List.iterate mulByX 1 (255 + (255 + 2)) := by rw [List.iterate_add, List.iterate_add]

/-- EXP holds the generator to every index, the second copy and the guards included (R62). -/
theorem readExp_builtTables (i : Fin 512) : readExp builtTables i = generatorTo i.val := by
  simp only [readExp, builtTables, builtExp, expValues_eq_iterate, Fin.getElem_fin, Vector.getElem_mk,
    List.getElem_toArray, List.getElem_iterate, generatorTo]

/-- EXP holds the generator to its index modulo 255 (R62). -/
theorem readExp_builtTables_mod (i : Fin 512) : readExp builtTables i = generatorTo (i.val % 255) := by
  rw [readExp_builtTables, generatorTo_mod]

/-- LOG gives back the exponent of a power (R64). -/
theorem readLog_generatorTo {i : Nat} (hi : i < 255) (h : generatorTo i ≠ 0) :
    readLog builtTables (generatorTo i) h = i := by
  have hpos : (generatorTo i).toNat - 1 + 1 = (generatorTo i).toNat :=
    Nat.succ_pred_eq_of_ne_zero (toNat_ne_zero h)
  have hround : roundOf (generatorTo i) (loopValues 255 1) 0 = i := by
    have hidx := loopValues_nodup.idxOf_getElem i (by rwa [loopValues_length])
    rw [loopValues_getElem] at hidx
    rw [roundOf_eq_idxOf, hidx, Nat.zero_add]
  have hentry : readLog builtTables (generatorTo i) h = (builtLogEntry (generatorTo i)).toNat := by
    simp [readLog, builtTables, builtLog, hpos]
  rw [hentry, builtLogEntry, hround, BitVec.toNat_ofNat, Nat.mod_eq_of_lt (by omega)]

/-- LOG holds the one exponent below 255 whose power is its index (R64). -/
theorem readLog_spec {x : Byte} (h : x ≠ 0) : readLog builtTables x h < 255 ∧ generatorTo (readLog builtTables x h) = x := by
  obtain ⟨i, hi, rfl⟩ := exists_generatorTo_eq h
  rw [readLog_generatorTo hi]
  exact ⟨hi, rfl⟩

/-- Settles O12: each round's value is a power of the generator, which EXP holds at both places and LOG gives back. -/
theorem constructionLoopFillsTables : Obligations.ConstructionLoopFillsTables := by
  refine ⟨fun i hi => ?_, readExp_builtTables_mod 510, readExp_builtTables_mod 511, ?_, fun i j h => ?_⟩
  · simp only [times2_iterate, readExp_builtTables, generatorTo_add_period]
    exact ⟨trivial, trivial, generatorTo_ne_zero i, readLog_generatorTo hi _⟩
  · rw [times2_iterate]
    exact generator_period
  · rw [times2_iterate, times2_iterate] at h
    exact Fin.ext (generatorTo_inj i.isLt j.isLt h)

/-- Settles O14: EXP holds the powers, and their exponents count modulo 255. -/
theorem expHoldsGeneratorPowers : Obligations.ExpHoldsGeneratorPowers := by
  refine ⟨fun i => ⟨readExp_builtTables i, ?_⟩, readExp_builtTables_mod 0, readExp_builtTables_mod 255,
    readExp_builtTables_mod 510, readExp_builtTables_mod 1, readExp_builtTables_mod 256, readExp_builtTables_mod 511⟩
  rw [readExp_builtTables_mod, readExp_builtTables]

/-- Settles O15: the powers below 255 list each nonzero element once, and LOG gives the exponent. -/
theorem tablesAreInverse : Obligations.TablesAreInverse := by
  refine ⟨fun x hx => ?_, fun x hx hl => ?_, fun i hi h => ?_, fun i => ?_, ?_, ?_, fun x hx => ?_⟩
  · obtain ⟨i, hi, rfl⟩ := exists_generatorTo_eq hx
    refine ⟨⟨i, by omega⟩, hi, readExp_builtTables _, fun j hj e => Fin.ext ?_⟩
    rw [readExp_builtTables] at e
    exact generatorTo_inj hj hi e
  · rw [readExp_builtTables]
    exact (readLog_spec hx).2
  · simp only [readExp_builtTables] at h ⊢
    exact readLog_generatorTo hi h
  · rw [readExp_builtTables]
    exact generatorTo_ne_zero i
  · exact readLog_generatorTo (i := 0) (by decide) (by decide)
  · exact readLog_generatorTo (i := 1) (by decide) (by decide)
  · exact Nat.le_of_lt_succ (readLog_spec hx).1

/-! ### The spelling of a command -/

/-- A row of the decoder spells its command when the test of its must-be-zero fields is the one the form asks. -/
theorem spelledAs_of_whenZero {op : BitVec 4} {zero : Word32 → Prop} {mk : Word32 → Instr} (test : Word32 → Bool)
    (hrow : ∀ w, opBits w = op → decode w = whenZero (test w) (mk w)) (htest : ∀ w, test w = true ↔ zero w) :
    SpelledAs op zero mk := by
  intro w hop
  rw [hrow w hop, ← htest w]
  cases test w <;> simp [whenZero]

/-- The must-be-zero fields of form TI (`30_encoding.md` R47). -/
theorem zeroTI_iff (w : Word32) : zeroTI w = true ↔ raBits w = 0 ∧ rbBits w = 0 := by
  simp [zeroTI, fieldRA_eq, fieldRB_eq]

/-- The must-be-zero fields of forms SS and PP (R47). -/
theorem zeroSS_iff (w : Word32) : zeroSS w = true ↔ rbBits w = 0 ∧ immBits w = 0 := by
  simp [zeroSS, fieldRB_eq, fieldIMM_eq]

/-! ### The commands -/

/-- A command whose result is an element writes it and nothing else. -/
theorem State.finishS_of_ok (s : State) (w : Word32) (rd : SReg) {r : Except Cause Byte} {v : Byte} (h : r = .ok v) :
    WritesOnlyS s (s.finishS w rd r) rd v := by
  subst h
  obtain ⟨u, hu, hw⟩ | ⟨c, hc, -⟩ := s.finishS_cases w rd (.ok v)
  · cases hu
    exact hw
  · cases hc

/-- A command whose result is a cause enters that fault and does nothing else. -/
theorem State.finishS_of_error (s : State) (w : Word32) (rd : SReg) {r : Except Cause Byte} {c : Cause}
    (h : r = .error c) : FaultEntered s (s.finishS w rd r) c w := by
  subst h
  exact s.faultEntered_raise c w

/-- EXPRD's result at an index of EXP (`40_tables.md` R69). -/
theorem expEntry_of_lt (t : Tables) {i : Nat} (h : i < 512) : expEntry t i = .ok (readExp t ⟨i, h⟩) := dif_pos h

/-- LOGRD's result on a nonzero element (`40_tables.md` R70). -/
theorem logEntry_of_ne_zero (t : Tables) {x : Byte} (h : x ≠ 0) : logEntry t x = .ok (BitVec.ofNat 8 (readLog t x h)) :=
  dif_neg h

/-- Settles O16: the decoder's row 1 is EXPRD's, and the result is the entry or the cause. -/
theorem exprdReadsExpEntry : Obligations.ExprdReadsExpEntry := by
  refine ⟨spelledAs_of_whenZero zeroTI (fun w h => ?_) zeroTI_iff, fun rd imm s => ⟨fun h => ?_, fun h => ?_⟩⟩
  · simp [decode, fieldOP_eq, h, fieldRD_eq, fieldIMM_eq]
  · have hw := s.finishS_of_ok (encode (.exprd rd imm)) rd (expEntry_of_lt s.tables h)
    refine ⟨_, rfl, hw, fun hbuilt => ?_⟩
    rw [hw.1, hbuilt, readExp_builtTables]
    exact ⟨rfl, generatorTo_ne_zero _⟩
  · exact ⟨_, rfl, s.finishS_of_error _ rd ((expEntry_eq_error_iff _ _ _).mpr ⟨h, rfl⟩)⟩

/-- Settles O17: the decoder's row 2 is LOGRD's, and the result is the entry or the cause. -/
theorem logrdReadsLogEntry : Obligations.LogrdReadsLogEntry := by
  refine ⟨spelledAs_of_whenZero zeroSS (fun w h => ?_) zeroSS_iff, fun rd ra s => ⟨fun h => ?_, fun h => ?_⟩⟩
  · simp [decode, fieldOP_eq, h, fieldRD_eq, fieldRA_eq]
  · exact ⟨_, rfl, s.finishS_of_error _ rd ((logEntry_eq_error_iff _ _ _).mpr ⟨h, rfl⟩)⟩
  · have hv : (BitVec.ofNat 8 (readLog s.tables (s.readS ra) h)).toNat = readLog s.tables (s.readS ra) h := by
      rw [BitVec.toNat_ofNat, Nat.mod_eq_of_lt (readLog_lt s.tables (s.readS ra) h)]
    refine ⟨_, _, rfl, s.finishS_of_ok _ rd (logEntry_of_ne_zero s.tables h), hv, fun hbuilt => ?_⟩
    rw [hv, hbuilt]
    exact ⟨Nat.le_of_lt_succ (readLog_spec h).1, (readLog_spec h).2⟩

end Sys2Proof.Machine
end

section
/-! PROOFS. The field functions against arithmetic modulo 0x11D (`41_field_ops.md` R71 to R79), and the five field commands
(R72, R74, R76, R78, R80). -/

namespace Sys2Proof.Machine

/-! ### Shift-and-xor multiplication by a power of the generator -/

/-- The product by the indeterminate is additive: each operand's top bit brings its own modulus. -/
theorem mulByX_xor (x y : Byte) : mulByX (x ^^^ y) = mulByX x ^^^ mulByX y := by
  have hcarry (a b : Bool) :
      (if a ^^ b then 0x1D else 0 : Byte) = (if a then 0x1D else 0) ^^^ (if b then 0x1D else 0) := by
    cases a <;> cases b <;> rfl
  simp only [mulByX, BitVec.shiftLeft_xor_distrib, BitVec.getLsbD_xor, hcarry]
  ac_rfl

/-- The indeterminate moves out of the left factor, round by round of the sum. -/
theorem shiftXorMul_mulByX (x y : Byte) : shiftXorMul (mulByX x) y = mulByX (shiftXorMul x y) := by
  have hround (acc : Byte) (i : Nat) :
      (if y.getLsbD i then mulByX acc ^^^ mulByX^[i] (mulByX x) else mulByX acc) =
        mulByX (if y.getLsbD i then acc ^^^ mulByX^[i] x else acc) := by
    rw [← Function.iterate_succ_apply, Function.iterate_succ_apply', ← mulByX_xor, apply_ite mulByX]
  exact List.foldl_hom mulByX (init := 0) hround

/-- A zero left factor adds nothing in any round. -/
theorem shiftXorMul_zero_left (y : Byte) : shiftXorMul 0 y = 0 := by
  have hround (acc : Byte) (i : Nat) : (if y.getLsbD i then acc ^^^ mulByX^[i] 0 else acc) = acc := by
    rw [Function.iterate_fixed (by decide), show acc ^^^ 0 = acc from BitVec.xor_zero, ite_self]
  simp only [shiftXorMul, hround, List.foldl_fixed]

/-- A zero right factor has no bit to add at. -/
theorem shiftXorMul_zero_right (x : Byte) : shiftXorMul x 0 = 0 := by simp [shiftXorMul]

/-- Below the degree of the modulus the powers of the generator are the single bits. -/
theorem generatorTo_eq_twoPow {i : Nat} (h : i < 8) : generatorTo i = BitVec.twoPow 8 i := by
  revert i
  decide

/-- After `n` rounds of `1` times `y` the sum holds the low `n` bits of `y`. -/
theorem getLsbD_shiftXorMul_one_rounds (y : Byte) {n : Nat} (hn : n ≤ 8) (k : Nat) :
    ((List.range n).foldl (fun acc i => if y.getLsbD i then acc ^^^ mulByX^[i] 1 else acc) 0).getLsbD k =
      (decide (k < n) && y.getLsbD k) := by
  induction n with
  | zero => simp
  | succ n ih =>
    have hpow : mulByX^[n] 1 = BitVec.twoPow 8 n := generatorTo_eq_twoPow hn
    have hacc := ih (by omega)
    rw [List.range_succ, List.foldl_append, List.foldl_cons, List.foldl_nil, hpow, apply_ite (BitVec.getLsbD · k),
      BitVec.getLsbD_xor, hacc, BitVec.getLsbD_twoPow]
    obtain rfl | hk := eq_or_ne n k
    · cases y.getLsbD n <;> simp [show n < 8 from hn]
    · have hlt : k < n + 1 ↔ k < n := by omega
      simp [hk, hlt]

/-- 1 is a unit on the left. -/
theorem shiftXorMul_one_left (y : Byte) : shiftXorMul 1 y = y := by
  refine BitVec.eq_of_getLsbD_eq fun k hk => ?_
  rw [shiftXorMul, getLsbD_shiftXorMul_one_rounds y le_rfl, decide_eq_true hk, Bool.true_and]

/-- A power of the generator times `y` is that many products of `y` by the indeterminate. -/
theorem shiftXorMul_generatorTo (i : Nat) : shiftXorMul (generatorTo i) = mulByX^[i] := by
  induction i with
  | zero => exact funext shiftXorMul_one_left
  | succ i ih =>
    funext y
    rw [generatorTo, Function.iterate_succ_apply', ← generatorTo, shiftXorMul_mulByX, ih, Function.iterate_succ_apply']

/-! ### The field functions by their cases -/

section FieldFunctions

variable (t : Tables) {x y : Byte}

/-- `gf_mul` with a zero left operand (`41_field_ops.md` R73). -/
theorem gfMul_zero_left (y : Byte) : gfMul t 0 y = 0 := dif_pos rfl

/-- `gf_mul` with a zero right operand (R73). -/
theorem gfMul_zero_right (x : Byte) : gfMul t x 0 = 0 := by
  unfold gfMul
  split
  · rfl
  · exact dif_pos rfl

/-- `gf_mul` on nonzero operands (R73). -/
theorem gfMul_of_ne_zero (hx : x ≠ 0) (hy : y ≠ 0) (h : readLog t x hx + readLog t y hy < 512) :
    gfMul t x y = readExp t ⟨readLog t x hx + readLog t y hy, h⟩ := by
  rw [gfMul, dif_neg hx, dif_neg hy]

/-- `gf_div` by zero (R75). -/
theorem gfDiv_zero_right (x : Byte) : gfDiv t x 0 = .error .divisionByZero := dif_pos rfl

/-- `gf_div` of zero by a nonzero operand (R75). -/
theorem gfDiv_zero_left (hy : y ≠ 0) : gfDiv t 0 y = .ok 0 := by rw [gfDiv, dif_neg hy, dif_pos rfl]

/-- `gf_div` on nonzero operands (R75). -/
theorem gfDiv_of_ne_zero (hx : x ≠ 0) (hy : y ≠ 0) (h : (readLog t x hx + 255 - readLog t y hy) % 255 < 512) :
    gfDiv t x y = .ok (readExp t ⟨(readLog t x hx + 255 - readLog t y hy) % 255, h⟩) := by
  rw [gfDiv, dif_neg hy, dif_neg hx]
  rfl

/-- `gf_inv` of a nonzero operand (R77). -/
theorem gfInv_of_ne_zero (hx : x ≠ 0) (h : 255 - readLog t x hx < 512) :
    gfInv t x = .ok (readExp t ⟨255 - readLog t x hx, h⟩) := dif_neg hx

/-- `gf_pow` of zero to a positive exponent (R79). -/
theorem gfPow_zero_left {n : Nat} (hn : n ≠ 0) : gfPow t 0 n = .ok 0 := by rw [gfPow, dif_pos rfl, if_neg hn]

/-- `gf_pow` of a nonzero operand (R79). -/
theorem gfPow_of_ne_zero (hx : x ≠ 0) {n : Nat} (h : readLog t x hx * n % 255 < 512) :
    gfPow t x n = .ok (readExp t ⟨readLog t x hx * n % 255, h⟩) := dif_neg hx

/-! ### The field functions with the constructed tables -/

/-- The table product is shift-and-xor multiplication: of two powers of the generator both add the exponents. -/
theorem gfMul_builtTables : gfMul builtTables = shiftXorMul := by
  funext x y
  by_cases hx : x = 0
  · rw [hx, gfMul_zero_left, shiftXorMul_zero_left]
  by_cases hy : y = 0
  · rw [hy, gfMul_zero_right, shiftXorMul_zero_right]
  obtain ⟨hi, ex⟩ := readLog_spec hx
  obtain ⟨hj, ey⟩ := readLog_spec hy
  have hval := gfMul_of_ne_zero builtTables hx hy (by omega)
  rw [readExp_builtTables] at hval
  calc gfMul builtTables x y
    _ = generatorTo (readLog builtTables x hx + readLog builtTables y hy) := hval
    _ = mulByX^[readLog builtTables x hx] (generatorTo (readLog builtTables y hy)) := Function.iterate_add_apply _ _ _ _
    _ = shiftXorMul x y := by rw [← shiftXorMul_generatorTo, ex, ey]

/-- The exponents of the generator add in a product. -/
theorem gfMul_generatorTo (i j : Nat) : gfMul builtTables (generatorTo i) (generatorTo j) = generatorTo (i + j) := by
  rw [gfMul_builtTables, shiftXorMul_generatorTo]
  exact (Function.iterate_add_apply mulByX i j 1).symm

/-- A product is 0 only when an operand is: no power of the generator is. -/
theorem gfMul_eq_zero (h : gfMul builtTables x y = 0) : x = 0 ∨ y = 0 := by
  by_contra! hne
  obtain ⟨i, -, rfl⟩ := exists_generatorTo_eq hne.1
  obtain ⟨j, -, rfl⟩ := exists_generatorTo_eq hne.2
  rw [gfMul_generatorTo] at h
  exact generatorTo_ne_zero _ h

/-- The product does not depend on the order of its operands, as the sum of exponents does not. -/
theorem gfMul_comm (x y : Byte) : gfMul builtTables x y = gfMul builtTables y x := by
  by_cases hx : x = 0
  · rw [hx, gfMul_zero_left, gfMul_zero_right]
  by_cases hy : y = 0
  · rw [hy, gfMul_zero_left, gfMul_zero_right]
  obtain ⟨i, -, rfl⟩ := exists_generatorTo_eq hx
  obtain ⟨j, -, rfl⟩ := exists_generatorTo_eq hy
  rw [gfMul_generatorTo, gfMul_generatorTo, Nat.add_comm]

/-- 1 is a unit on the left. -/
theorem gfMul_one_left (x : Byte) : gfMul builtTables 1 x = x := by rw [gfMul_builtTables, shiftXorMul_one_left]

/-- 1 is a unit on the right. -/
theorem gfMul_one_right (x : Byte) : gfMul builtTables x 1 = x := by rw [gfMul_comm, gfMul_one_left]

/-- Every quotient undoes the product: the divisor's exponent comes back, and a period of 255 with it. -/
theorem gfMul_of_gfDiv_eq_ok {z : Byte} (h : gfDiv builtTables x y = .ok z) : gfMul builtTables z y = x := by
  by_cases hy : y = 0
  · rw [hy, gfDiv_zero_right] at h
    cases h
  by_cases hx : x = 0
  · rw [hx, gfDiv_zero_left _ hy] at h
    cases h
    rw [hx, gfMul_zero_left]
  obtain ⟨hi, ex⟩ := readLog_spec hx
  obtain ⟨hj, ey⟩ := readLog_spec hy
  rw [gfDiv_of_ne_zero _ hx hy (by omega), readExp_builtTables, generatorTo_mod] at h
  cases h
  have hsum : readLog builtTables x hx + 255 - readLog builtTables y hy + readLog builtTables y hy =
      readLog builtTables x hx + 255 := by omega
  calc gfMul builtTables (generatorTo (readLog builtTables x hx + 255 - readLog builtTables y hy)) y
    _ = gfMul builtTables (generatorTo (readLog builtTables x hx + 255 - readLog builtTables y hy))
          (generatorTo (readLog builtTables y hy)) := by rw [ey]
    _ = generatorTo (readLog builtTables x hx + 255) := by rw [gfMul_generatorTo, hsum]
    _ = x := by rw [generatorTo_add_period, ex]

/-- The inverse has the exponent that completes a period of 255. -/
theorem gfMul_of_gfInv_eq_ok {z : Byte} (h : gfInv builtTables x = .ok z) : gfMul builtTables x z = 1 := by
  by_cases hx : x = 0
  · rw [(gfInv_eq_error_iff _ _ .divisionByZero).mpr ⟨hx, rfl⟩] at h
    cases h
  obtain ⟨hi, ex⟩ := readLog_spec hx
  rw [gfInv_of_ne_zero _ hx (by omega), readExp_builtTables] at h
  cases h
  have hsum : readLog builtTables x hx + (255 - readLog builtTables x hx) = 255 := by omega
  calc gfMul builtTables x (generatorTo (255 - readLog builtTables x hx))
    _ = gfMul builtTables (generatorTo (readLog builtTables x hx))
          (generatorTo (255 - readLog builtTables x hx)) := by rw [ex]
    _ = generatorTo 255 := by rw [gfMul_generatorTo, hsum]
    _ = 1 := generator_period

/-- A power of the generator multiplied by itself multiplies its exponent. -/
theorem repeatedProduct_generatorTo (i n : Nat) : repeatedProduct builtTables (generatorTo i) n = generatorTo (i * n) := by
  rw [repeatedProduct, gfMul_builtTables, shiftXorMul_generatorTo, generatorTo, Function.iterate_mul]

/-- `gf_pow` is repeated multiplication wherever it is no fault (R79). -/
theorem gfPow_builtTables {n : Nat} (h : ¬ (x = 0 ∧ n = 0)) :
    gfPow builtTables x n = .ok (repeatedProduct builtTables x n) := by
  by_cases hx : x = 0
  · obtain ⟨m, rfl⟩ := Nat.exists_eq_succ_of_ne_zero fun hn => h ⟨hx, hn⟩
    rw [hx, gfPow_zero_left _ m.succ_ne_zero, repeatedProduct, Function.iterate_succ_apply', gfMul_zero_left]
  · obtain ⟨-, ex⟩ := readLog_spec hx
    rw [gfPow_of_ne_zero _ hx (by omega), readExp_builtTables, generatorTo_mod, ← repeatedProduct_generatorTo, ex]

end FieldFunctions

/-! ### The statements about the field functions -/

/-- Settles O28: addition is xor by definition, and xor of equals is 0. -/
theorem fieldSumIsXor : Obligations.FieldSumIsXor :=
  fun _ _ => ⟨rfl, rfl, BitVec.xor_self, BitVec.xor_zero⟩

/-- Settles O29: the table product is shift-and-xor multiplication, and the exponents of its operands add. -/
theorem fieldProductIsCarrylessProduct : Obligations.FieldProductIsCarrylessProduct := by
  intro x y
  refine ⟨?_, fun hx hy => ⟨?_, gfMul_of_ne_zero _ hx hy⟩, by rw [gfMul_builtTables], gfMul_eq_zero, gfMul_one_right x,
    gfMul_comm x y⟩
  · rintro (rfl | rfl)
    · exact gfMul_zero_left _ y
    · exact gfMul_zero_right _ x
  · have := (readLog_spec hx).1
    have := (readLog_spec hy).1
    omega

/-- Settles O30: the three cases are the function's, and the quotient's exponent is the difference. -/
theorem fieldQuotientUndoesProduct : Obligations.FieldQuotientUndoesProduct := by
  intro x y
  refine ⟨?_, ?_, fun hx hy => ⟨?_, ?_, gfDiv_of_ne_zero _ hx hy⟩, fun z => gfMul_of_gfDiv_eq_ok⟩
  · rintro rfl
    exact gfDiv_zero_right _ x
  · rintro hy rfl
    exact gfDiv_zero_left _ hy
  · have := (readLog_spec hy).1
    omega
  · have := (readLog_spec hx).1
    omega

/-- Settles O31: the inverse's exponent is the complement to 255, and 1 times the inverse of 1 is that inverse. -/
theorem fieldInverseIsInverse : Obligations.FieldInverseIsInverse := by
  refine ⟨dif_pos rfl, fun x hx => ?_⟩
  have hlog := (readLog_spec hx).1
  have hok := gfInv_of_ne_zero builtTables hx (by omega)
  refine ⟨by omega, _, hok, fun _ => rfl, gfMul_of_gfInv_eq_ok hok, ?_⟩
  rintro rfl
  exact (gfMul_one_left _).symm.trans (gfMul_of_gfInv_eq_ok hok)

/-! ### The commands -/

/-- The must-be-zero field of forms SSS, SPS and PPP (`30_encoding.md` R47). -/
theorem zeroSSS_iff (w : Word32) : zeroSSS w = true ↔ immBits w = 0 := by
  simp [zeroSSS, fieldIMM_eq]

/-- The must-be-zero field of form SSI (R47). -/
theorem zeroSSI_iff (w : Word32) : zeroSSI w = true ↔ rbBits w = 0 := by
  simp [zeroSSI, fieldRB_eq]

/-- A result that is no fault is an element. -/
theorem exists_eq_ok {α : Type} {r : Except Cause α} (h : ∀ c, r ≠ .error c) : ∃ v, r = .ok v := by
  cases r with
  | ok v => exact ⟨v, rfl⟩
  | error c => exact absurd rfl (h c)

/-- Settles O18: the decoder's row 3 is GFADD's, and its result is always the sum. -/
theorem gfaddWritesXor : Obligations.GfaddWritesXor := by
  refine ⟨spelledAs_of_whenZero zeroSSS (fun w h => ?_) zeroSSS_iff, fun rd ra rb s => ?_⟩
  · simp [decode, fieldOP_eq, h, fieldRD_eq, fieldRA_eq, fieldRB_eq]
  · exact ⟨_, rfl, s.finishS_of_ok _ rd rfl⟩

/-- Settles O19: the decoder's row 4 is GFMUL's, and its result is always the product. -/
theorem gfmulWritesProduct : Obligations.GfmulWritesProduct := by
  refine ⟨spelledAs_of_whenZero zeroSSS (fun w h => ?_) zeroSSS_iff, fun rd ra rb s => ?_⟩
  · simp [decode, fieldOP_eq, h, fieldRD_eq, fieldRA_eq, fieldRB_eq]
  · have hw := s.finishS_of_ok (encode (.gfmul rd ra rb)) rd (v := gfMul s.tables (s.readS ra) (s.readS rb)) rfl
    refine ⟨_, rfl, hw, fun hbuilt => ?_⟩
    rw [hw.1, hbuilt, gfMul_builtTables]

/-- Settles O20: the decoder's row 5 is GFDIV's, and its result is a fault exactly on a zero divisor. -/
theorem gfdivWritesQuotient : Obligations.GfdivWritesQuotient := by
  refine ⟨spelledAs_of_whenZero zeroSSS (fun w h => ?_) zeroSSS_iff, fun rd ra rb s => ⟨fun h => ?_, fun h => ?_⟩⟩
  · simp [decode, fieldOP_eq, h, fieldRD_eq, fieldRA_eq, fieldRB_eq]
  · exact ⟨_, rfl, s.finishS_of_error _ rd ((gfDiv_eq_error_iff _ _ _ _).mpr ⟨h, rfl⟩)⟩
  · obtain ⟨v, hv⟩ := exists_eq_ok fun c e => h ((gfDiv_eq_error_iff s.tables (s.readS ra) (s.readS rb) c).mp e).1
    refine ⟨_, v, hv, rfl, s.finishS_of_ok _ rd hv, fun hbuilt => ?_⟩
    rw [hbuilt] at hv
    rw [← gfMul_builtTables, gfMul_of_gfDiv_eq_ok hv]

/-- Settles O21: the decoder's row 6 is GFINV's, and its result is a fault exactly on 0. -/
theorem gfinvWritesInverse : Obligations.GfinvWritesInverse := by
  refine ⟨spelledAs_of_whenZero zeroSS (fun w h => ?_) zeroSS_iff, fun rd ra s => ⟨fun h => ?_, fun h => ?_⟩⟩
  · simp [decode, fieldOP_eq, h, fieldRD_eq, fieldRA_eq]
  · exact ⟨_, rfl, s.finishS_of_error _ rd ((gfInv_eq_error_iff _ _ _).mpr ⟨h, rfl⟩)⟩
  · obtain ⟨v, hv⟩ := exists_eq_ok fun c e => h ((gfInv_eq_error_iff s.tables (s.readS ra) c).mp e).1
    refine ⟨_, v, hv, rfl, s.finishS_of_ok _ rd hv, fun hbuilt => ?_⟩
    rw [hbuilt] at hv
    rw [← gfMul_builtTables, gfMul_of_gfInv_eq_ok hv]

/-- Settles O22: the decoder's row 7 is GFPOW's, and its result is a fault exactly on 0 to the 0. -/
theorem gfpowWritesPower : Obligations.GfpowWritesPower := by
  refine ⟨spelledAs_of_whenZero zeroSSI (fun w h => ?_) zeroSSI_iff, fun rd ra n s => ⟨fun h => ?_, fun h => ?_⟩⟩
  · simp [decode, fieldOP_eq, h, fieldRD_eq, fieldRA_eq, fieldIMM_eq]
  · exact ⟨_, rfl, s.finishS_of_error _ rd ((gfPow_eq_error_iff _ _ _ _).mpr ⟨h, rfl⟩)⟩
  · obtain ⟨v, hv⟩ := exists_eq_ok fun c e => h ((gfPow_eq_error_iff s.tables (s.readS ra) n.toNat c).mp e).1
    refine ⟨_, v, hv, rfl, s.finishS_of_ok _ rd hv, fun hbuilt => ?_⟩
    rw [hbuilt, gfPow_builtTables h, repeatedProduct, gfMul_builtTables] at hv
    exact (Except.ok.inj hv).symm

end Sys2Proof.Machine
end

section
/-! PROOFS. The polynomial functions by their coefficients (`42_poly_ops.md` R82 to R94), and the five polynomial commands
(R84, R87, R89, R91, R93, R95). -/

namespace Sys2Proof.Machine

/-! ### Coefficients -/

/-- Above the first, the coefficients are those of the tail. -/
@[simp] theorem coeff_cons_succ (c : Byte) (p : Poly) (i : Nat) : coeff (c :: p) (i + 1) = coeff p i := rfl

/-- Indices past the end contribute 0 (`42_poly_ops.md` R88). -/
theorem coeff_of_length_le {p : Poly} {i : Nat} (h : p.length ≤ i) : coeff p i = 0 :=
  List.getD_eq_default p 0 h

/-- A sequence given by index has that coefficient at each of its indices. -/
theorem coeff_map_range (n : Nat) (f : Nat → Byte) (i : Nat) :
    coeff ((List.range n).map f) i = if i < n then f i else 0 := by
  by_cases h : i < n <;> simp [coeff, h]

/-- Zeros at the high-index end change no coefficient. -/
theorem coeff_append_replicate_zero (p : Poly) (k i : Nat) : coeff (p ++ List.replicate k 0) i = coeff p i := by
  obtain h | h := Nat.lt_or_ge i p.length
  · exact List.getD_append p _ 0 i h
  · rw [coeff_of_length_le h, coeff, List.getD_append_right p _ 0 i h, List.getD_eq_getElem?_getD,
      List.getElem?_getD_replicate_default_eq]

/-! ### Normal form, R82 -/

/-- What the loop of `norm` drops from a nonempty sequence are zeros at its front. -/
theorem exists_replicate_append_normFromTop {p : Poly} (h : p ≠ []) : ∃ k, p = List.replicate k 0 ++ normFromTop p := by
  induction p using normFromTop.induct with
  | case1 => exact absurd rfl h
  | case2 c => exact ⟨0, rfl⟩
  | case3 d lower ih =>
    obtain ⟨k, hk⟩ := ih (List.cons_ne_nil d lower)
    refine ⟨k + 1, ?_⟩
    rw [normFromTop, if_pos rfl, List.replicate_succ, List.cons_append, ← hk]
  | case4 c d lower hc => exact ⟨0, by rw [normFromTop, if_neg hc]; rfl⟩

/-- The loop of `norm` stops at a nonzero element or at the last one. -/
theorem normFromTop_eq_of_head {p : Poly} (h : (normFromTop p).head? = some 0) : normFromTop p = [0] := by
  induction p using normFromTop.induct with
  | case1 => rfl
  | case2 c => simpa [normFromTop] using h
  | case3 d lower ih =>
    rw [normFromTop, if_pos rfl] at h ⊢
    exact ih h
  | case4 c d lower hc =>
    rw [normFromTop, if_neg hc] at h
    exact absurd (Option.some.inj h) hc

/-- `norm` drops zeros at the high-index end of a nonempty sequence, and nothing else. -/
theorem exists_norm_append_replicate {p : Poly} (h : p ≠ []) : ∃ k, p = norm p ++ List.replicate k 0 := by
  obtain ⟨k, hk⟩ := exists_replicate_append_normFromTop (List.reverse_ne_nil_iff.mpr h)
  exact ⟨k, by simpa [norm] using congrArg List.reverse hk⟩

/-- `norm` keeps every coefficient. -/
@[simp] theorem coeff_norm (p : Poly) (i : Nat) : coeff (norm p) i = coeff p i := by
  obtain rfl | h := eq_or_ne p []
  · exact coeff_append_replicate_zero [] 1 i
  · obtain ⟨k, hk⟩ := exists_norm_append_replicate h
    conv_rhs => rw [hk, coeff_append_replicate_zero]

/-- `norm` gives a normalised sequence. -/
theorem normalised_norm (p : Poly) : Normalised (norm p) := by
  refine ⟨List.ne_nil_of_length_pos (norm_length p).1, fun h => ?_⟩
  rw [norm, List.getLast?_reverse] at h
  rw [norm, normFromTop_eq_of_head h, List.reverse_singleton]

/-- A normalised sequence has no zero to drop. -/
theorem norm_of_normalised {p : Poly} (h : Normalised p) : norm p = p := by
  obtain ⟨hne, hlast⟩ := h
  obtain ⟨k, hk⟩ := exists_norm_append_replicate hne
  cases k with
  | zero => simpa using hk.symm
  | succ k =>
    have hp : p = [0] := hlast (by rw [hk, List.replicate_succ', ← List.append_assoc, List.getLast?_concat])
    rw [hp]
    rfl

/-- A normalised sequence all of whose coefficients are 0 is `[0]`. -/
theorem Normalised.eq_of_coeff_eq_zero {p : Poly} (h : Normalised p) (h0 : ∀ i, coeff p i = 0) : p = [0] := by
  obtain ⟨hne, hlast⟩ := h
  refine hlast ?_
  have hlt : p.length - 1 < p.length := Nat.sub_one_lt (List.length_pos_iff.mpr hne).ne'
  rw [List.getLast?_eq_getElem?, List.getElem?_eq_getElem hlt, ← List.getD_eq_getElem p 0 hlt]
  exact congrArg some (h0 _)

/-- The length of `norm` of a sequence given by index. -/
theorem norm_map_range_length (n : Nat) (f : Nat → Byte) :
    1 ≤ (norm ((List.range n).map f)).length ∧ (norm ((List.range n).map f)).length ≤ max 1 n := by
  simpa only [List.length_map, List.length_range] using norm_length ((List.range n).map f)

/-- Settles O34: `norm` is its input without zeros at the high-index end, so a normalised sequence is left alone. -/
theorem normDropsHighZeros : Obligations.NormDropsHighZeros := fun p =>
  ⟨normalised_norm p, coeff_norm p, (norm_length p).2, norm_of_normalised (normalised_norm p), rfl⟩

/-! ### The sum and the derivative, R88 and R94 -/

/-- `poly_add` adds coefficient by coefficient. -/
theorem coeff_polyAdd (p q : Poly) (i : Nat) : coeff (polyAdd p q) i = gfAdd (coeff p i) (coeff q i) := by
  rw [polyAdd, coeff_norm, coeff_map_range]
  split
  case isTrue h => rfl
  case isFalse h =>
    rw [coeff_of_length_le (p := p) (by omega), coeff_of_length_le (p := q) (by omega)]
    rfl

/-- `poly_add` is no longer than the longer operand, when there is one that is not empty. -/
theorem polyAdd_length_le {p : Poly} (q : Poly) (h : p ≠ []) : (polyAdd p q).length ≤ max p.length q.length := by
  have hpos := List.length_pos_iff.mpr h
  exact (norm_map_range_length _ _).2.trans (by omega)

/-- A polynomial plus itself is zero. -/
theorem polyAdd_self (p : Poly) : polyAdd p p = [0] :=
  (normalised_norm _).eq_of_coeff_eq_zero fun i => (coeff_polyAdd p p i).trans BitVec.xor_self

/-- Settles O36: the sum is `norm` of the coefficients' sums. -/
theorem polynomialSumByCoefficients : Obligations.PolynomialSumByCoefficients := fun p q hp _ =>
  ⟨coeff_polyAdd p q, normalised_norm _, (norm_length _).1, polyAdd_length_le q hp, polyAdd_self p, by
    rw [polyAdd_self]
    rfl⟩

/-- `poly_deriv` shifts down the terms of odd degree and no others. -/
theorem coeff_polyDeriv (p : Poly) (i : Nat) :
    coeff (polyDeriv p) i = if (i + 1) % 2 = 1 then coeff p (i + 1) else 0 := by
  rw [polyDeriv, coeff_norm, coeff_map_range]
  split
  case isTrue h => rfl
  case isFalse h => rw [coeff_of_length_le (p := p) (by omega), ite_self]

/-- `poly_deriv` is one shorter than its operand or shorter still, down to one coefficient. -/
theorem polyDeriv_length (p : Poly) : 1 ≤ (polyDeriv p).length ∧ (polyDeriv p).length ≤ max 1 (p.length - 1) :=
  norm_map_range_length _ _

/-- `poly_deriv` does not read the constant term. -/
theorem polyDeriv_cons (c d : Byte) (p : Poly) : polyDeriv (c :: p) = polyDeriv (d :: p) := rfl

/-- Settles O41: the derivative is `norm` of the odd-degree terms, which are the coefficients above the first. -/
theorem derivativeByCoefficients : Obligations.DerivativeByCoefficients := by
  refine ⟨fun c => rfl, fun p hp =>
    ⟨normalised_norm _, coeff_polyDeriv p, (polyDeriv_length p).2, fun c => ?_⟩⟩
  cases p with
  | nil => exact absurd rfl hp
  | cons d p => exact polyDeriv_cons c d p

/-! ### The value at a point, R86 -/

/-- Repeated products by the indeterminate are additive. -/
theorem mulByX_iterate_xor (i : Nat) (x y : Byte) : mulByX^[i] (x ^^^ y) = mulByX^[i] x ^^^ mulByX^[i] y := by
  induction i with
  | zero => rfl
  | succ i ih => simp only [Function.iterate_succ_apply', ih, mulByX_xor]

/-- The product is additive in its right operand, as the product by each power of the generator is. -/
theorem gfMul_xor_right (x y z : Byte) :
    gfMul builtTables x (y ^^^ z) = gfMul builtTables x y ^^^ gfMul builtTables x z := by
  by_cases hx : x = 0
  · rw [hx, gfMul_zero_left, gfMul_zero_left, gfMul_zero_left]
    rfl
  obtain ⟨i, -, rfl⟩ := exists_generatorTo_eq hx
  rw [gfMul_builtTables, shiftXorMul_generatorTo, mulByX_iterate_xor]

/-- The product is additive in its left operand. -/
theorem gfMul_xor_left (x y z : Byte) :
    gfMul builtTables (x ^^^ y) z = gfMul builtTables x z ^^^ gfMul builtTables y z := by
  rw [gfMul_comm, gfMul_xor_right, gfMul_comm z x, gfMul_comm z y]

/-- The product is associative, as the sum of exponents is. -/
theorem gfMul_assoc (x y z : Byte) :
    gfMul builtTables (gfMul builtTables x y) z = gfMul builtTables x (gfMul builtTables y z) := by
  by_cases hx : x = 0
  · simp only [hx, gfMul_zero_left]
  by_cases hy : y = 0
  · simp only [hy, gfMul_zero_left, gfMul_zero_right]
  by_cases hz : z = 0
  · simp only [hz, gfMul_zero_right]
  obtain ⟨i, -, rfl⟩ := exists_generatorTo_eq hx
  obtain ⟨j, -, rfl⟩ := exists_generatorTo_eq hy
  obtain ⟨k, -, rfl⟩ := exists_generatorTo_eq hz
  simp only [gfMul_generatorTo, Nat.add_assoc]

/-- The last term of a sum. -/
theorem xorSum_succ (n : Nat) (f : Nat → Byte) : xorSum (n + 1) f = xorSum n f ^^^ f n := by
  simp only [xorSum, List.range_succ, List.foldl_append, List.foldl_cons, List.foldl_nil]

/-- The first term of a sum. -/
theorem xorSum_succ_left (n : Nat) (f : Nat → Byte) : xorSum (n + 1) f = f 0 ^^^ xorSum n fun i => f (i + 1) := by
  induction n with
  | zero => exact BitVec.xor_comm _ _
  | succ n ih => rw [xorSum_succ, ih, xorSum_succ, BitVec.xor_assoc]

/-- A factor multiplies a sum term by term. -/
theorem gfMul_xorSum_left (n : Nat) (f : Nat → Byte) (x : Byte) :
    gfMul builtTables (xorSum n f) x = xorSum n fun i => gfMul builtTables (f i) x := by
  induction n with
  | zero => exact gfMul_zero_left _ x
  | succ n ih => rw [xorSum_succ, gfMul_xor_left, ih, xorSum_succ]

/-- Horner's method takes the constant term last (R86). -/
theorem polyEval_cons (t : Tables) (c : Byte) (p : Poly) (x : Byte) :
    polyEval t (c :: p) x = gfAdd (gfMul t (polyEval t p x) x) c := by
  unfold polyEval
  rw [List.reverse_cons]
  cases p.reverse with
  | nil =>
    rw [gfMul_zero_left]
    exact BitVec.zero_xor.symm
  | cons leading lower => exact List.foldl_append

/-- One more factor is one more in the exponent. -/
theorem repeatedProduct_succ (t : Tables) (x : Byte) (n : Nat) :
    repeatedProduct t x (n + 1) = gfMul t x (repeatedProduct t x n) := Function.iterate_succ_apply' _ _ _

/-- Every power of 1 is 1. -/
theorem repeatedProduct_one (n : Nat) : repeatedProduct builtTables 1 n = 1 :=
  Function.iterate_fixed (gfMul_one_left 1) n

/-- Horner's value is the sum of the coefficients times the powers of the point: each round raises every power by one. -/
theorem polyEval_eq_xorSum (p : Poly) (x : Byte) :
    polyEval builtTables p x = xorSum p.length fun i => gfMul builtTables (coeff p i) (repeatedProduct builtTables x i) := by
  induction p with
  | nil => rfl
  | cons c p ih =>
    have hround (i : Nat) : gfMul builtTables (gfMul builtTables (coeff p i) (repeatedProduct builtTables x i)) x =
        gfMul builtTables (coeff (c :: p) (i + 1)) (repeatedProduct builtTables x (i + 1)) := by
      rw [gfMul_assoc, gfMul_comm _ x, ← repeatedProduct_succ, coeff_cons_succ]
    have hconstant : gfMul builtTables (coeff (c :: p) 0) (repeatedProduct builtTables x 0) = c := gfMul_one_right c
    rw [polyEval_cons, ih, gfMul_xorSum_left, List.length_cons, xorSum_succ_left, hconstant]
    simp only [hround]
    exact BitVec.xor_comm _ _

/-- Settles O35: the recursion is Horner's, and at 1 every power is 1. -/
theorem hornerValueIsPowerSum : Obligations.HornerValueIsPowerSum := by
  refine ⟨fun c x => rfl, fun c p x _ => polyEval_cons _ c p x, fun p x _ => polyEval_eq_xorSum p x,
    fun p hp => ⟨?_, ?_⟩⟩
  · cases p with
    | nil => exact absurd rfl hp
    | cons c p =>
      rw [polyEval_cons, gfMul_zero_right]
      exact BitVec.zero_xor
  · simp only [polyEval_eq_xorSum, repeatedProduct_one, gfMul_one_right]

/-! ### The polynomial commands -/

/-- A command whose result is a sequence writes it and nothing else. -/
theorem State.finishP_of_ok (s : State) (w : Word32) (rd : PReg) {r : Except Cause Poly} {p : Poly} (h : r = .ok p) :
    WritesOnlyP s (s.finishP w rd r) rd p := by
  subst h
  obtain ⟨q, hq, hw⟩ | ⟨c, hc, -⟩ := s.finishP_cases w rd (.ok p)
  · cases hq
    exact hw
  · cases hc

/-- A command with a polynomial destination whose result is a cause enters that fault and does nothing else. -/
theorem State.finishP_of_error (s : State) (w : Word32) (rd : PReg) {r : Except Cause Poly} {c : Cause}
    (h : r = .error c) : FaultEntered s (s.finishP w rd r) c w := by
  subst h
  exact s.faultEntered_raise c w

section Sources

variable {α : Type} (s : State) {k ra rb : PReg}

/-- An empty source is the result, whatever would be computed from it (`42_poly_ops.md` R84). -/
theorem State.polySource_bind_of_nil (h : s.readP k = []) (f : Poly → Except Cause α) :
    (s.polySource k).bind f = .error .invalidDegree :=
  (bind_eq_error_iff _ f _).mpr (.inl ((s.polySource_eq_error_iff k _).mpr ⟨h, rfl⟩))

/-- A source that holds a polynomial is read. -/
theorem State.polySource_bind_of_ne_nil (h : s.readP k ≠ []) (f : Poly → Except Cause α) :
    (s.polySource k).bind f = f (s.readP k) := by
  obtain ⟨h', -⟩ | ⟨-, e⟩ := s.polySource_cases k
  · exact absurd h' h
  · rw [e]
    rfl

/-- One empty source of two is the result, whatever would be computed from them (R84). -/
theorem State.polySources_bind_of_nil (h : s.readP ra = [] ∨ s.readP rb = []) (f : Poly × Poly → Except Cause α) :
    (s.polySources ra rb).bind f = .error .invalidDegree :=
  (bind_eq_error_iff _ f _).mpr (.inl ((s.polySources_eq_error_iff ra rb _).mpr ⟨h, rfl⟩))

/-- Two sources that hold polynomials are read. -/
theorem State.polySources_bind_of_ne_nil (ha : s.readP ra ≠ []) (hb : s.readP rb ≠ [])
    (f : Poly × Poly → Except Cause α) : (s.polySources ra rb).bind f = f (s.readP ra, s.readP rb) := by
  obtain ⟨h, -⟩ | ⟨-, e⟩ := s.polySources_cases ra rb
  · exact absurd h (not_or.mpr ⟨ha, hb⟩)
  · rw [e]
    rfl

end Sources

/-- PMULT's result when the product fits (R91). -/
theorem pmultResult_of_le (t : Tables) {p q : Poly} (h : p.length + q.length - 1 ≤ Config.maxLen) :
    pmultResult t p q = .ok (polyMul t p q) := if_neg (Nat.not_lt.mpr h)

/-- PDIVMOD's result on a divisor of length at least 2 that is not the longer operand (R93). -/
theorem pdivmodResult_of_le (t : Tables) {p q : Poly} (h2 : 2 ≤ q.length) (h : q.length ≤ p.length) :
    pdivmodResult t p q = .ok (polyDivrem t p q) := by
  rw [pdivmodResult, if_neg (Nat.not_lt.mpr h), if_neg (Nat.ne_of_gt h2)]

/-- Settles O23: the decoder's row 8 is PEVAL's, and an empty source is its only fault. -/
theorem pevalWritesValue : Obligations.PevalWritesValue := by
  refine ⟨spelledAs_of_whenZero zeroSSS (fun w h => ?_) zeroSSS_iff, fun rd ra rb s => ⟨fun h => ?_, fun h => ?_⟩⟩
  · simp [decode, fieldOP_eq, h, fieldRD_eq, fieldRA_eq, fieldRB_eq]
  · exact ⟨_, exec_peval rd ra rb s, s.finishS_of_error _ rd (s.polySource_bind_of_nil h _)⟩
  · exact ⟨_, exec_peval rd ra rb s, s.finishS_of_ok _ rd (s.polySource_bind_of_ne_nil h _)⟩

/-- Settles O24: the decoder's row 11 is PADD's, an empty source is its only fault, and the sum is no longer than the
longer source. -/
theorem paddWritesSum : Obligations.PaddWritesSum := by
  refine ⟨spelledAs_of_whenZero zeroSSS (fun w h => ?_) zeroSSS_iff, fun rd ra rb s => ⟨fun h => ?_, fun ha hb => ?_⟩⟩
  · simp [decode, fieldOP_eq, h, fieldRD_eq, fieldRA_eq, fieldRB_eq]
  · exact ⟨_, exec_padd rd ra rb s, s.finishP_of_error _ rd (s.polySources_bind_of_nil h _)⟩
  · have hw := s.finishP_of_ok (encode (.padd rd ra rb)) rd
      (s.polySources_bind_of_ne_nil ha hb fun pq => .ok (polyAdd pq.1 pq.2))
    refine ⟨_, exec_padd rd ra rb s, hw, fun hfit => ?_⟩
    rw [hw.1]
    exact (polyAdd_length_le _ ha).trans (max_le (hfit ra) (hfit rb))

/-- Settles O25: the decoder's row 9 is PMULT's, and after the sources only the product's length is tested. -/
theorem pmultWritesProduct : Obligations.PmultWritesProduct := by
  refine ⟨spelledAs_of_whenZero zeroSSS (fun w h => ?_) zeroSSS_iff,
    fun rd ra rb s => ⟨fun h => ?_, fun ha hb h => ?_, fun ha hb h => ?_⟩⟩
  · simp [decode, fieldOP_eq, h, fieldRD_eq, fieldRA_eq, fieldRB_eq]
  · exact ⟨_, exec_pmult rd ra rb s, s.finishP_of_error _ rd (s.polySources_bind_of_nil h _)⟩
  · exact ⟨_, exec_pmult rd ra rb s, s.finishP_of_error _ rd
      ((s.polySources_bind_of_ne_nil ha hb _).trans ((pmultResult_eq_error_iff _ _ _ _).mpr ⟨h, rfl⟩))⟩
  · exact ⟨_, exec_pmult rd ra rb s, s.finishP_of_ok _ rd
      ((s.polySources_bind_of_ne_nil ha hb _).trans (pmultResult_of_le _ h))⟩

/-- Settles O26: the decoder's row 10 is PDIVMOD's, and after the sources only the divisor's length is tested. -/
theorem pdivmodWritesRemainder : Obligations.PdivmodWritesRemainder := by
  refine ⟨spelledAs_of_whenZero zeroSSS (fun w h => ?_) zeroSSS_iff, fun rd ra rb s => ⟨fun h => ?_, fun h2 h => ?_⟩⟩
  · simp [decode, fieldOP_eq, h, fieldRD_eq, fieldRA_eq, fieldRB_eq]
  · refine ⟨_, exec_pdivmod rd ra rb s, s.finishP_of_error _ rd ?_⟩
    by_cases hnil : s.readP ra = [] ∨ s.readP rb = []
    · exact s.polySources_bind_of_nil hnil _
    · obtain ⟨ha, hb⟩ := not_or.mp hnil
      rw [s.polySources_bind_of_ne_nil ha hb]
      exact (pdivmodResult_eq_error_iff _ _ _ _).mpr ⟨(h.resolve_left ha).resolve_left hb, rfl⟩
  · have ha : s.readP ra ≠ [] := List.ne_nil_of_length_pos (by omega)
    have hb : s.readP rb ≠ [] := List.ne_nil_of_length_pos (by omega)
    have hw := s.finishP_of_ok (encode (.pdivmod rd ra rb)) rd
      ((s.polySources_bind_of_ne_nil ha hb fun pq => pdivmodResult s.tables pq.1 pq.2).trans
        (pdivmodResult_of_le s.tables h2 h))
    have hlen := polyDivrem_length s.tables _ _ h
    rw [← hw.1] at hlen
    exact ⟨_, exec_pdivmod rd ra rb s, hw, hlen, fun hfit => hlen.trans_le (Nat.sub_le_sub_right (hfit rb) 1)⟩

/-- Settles O27: the decoder's row 12 is PDERIV's, and an empty source is its only fault. -/
theorem pderivWritesDerivative : Obligations.PderivWritesDerivative := by
  refine ⟨spelledAs_of_whenZero zeroSS (fun w h => ?_) zeroSS_iff, fun rd ra s => ⟨fun h => ?_, fun h => ?_⟩⟩
  · simp [decode, fieldOP_eq, h, fieldRD_eq, fieldRA_eq]
  · exact ⟨_, exec_pderiv rd ra s, s.finishP_of_error _ rd (s.polySource_bind_of_nil h _)⟩
  · have hw := s.finishP_of_ok (encode (.pderiv rd ra)) rd (s.polySource_bind_of_ne_nil h fun p => .ok (polyDeriv p))
    refine ⟨_, exec_pderiv rd ra s, hw, ?_⟩
    rw [hw.1]
    exact polyDeriv_length _

/-- Settles O50: it is the first case of each command's own statement. -/
theorem emptySourceRaisesInvalidDegree : Obligations.EmptySourceRaisesInvalidDegree := by
  refine fun s => ⟨fun rd ra rb => (pevalWritesValue.2 rd ra rb s).1, fun rd ra => (pderivWritesDerivative.2 rd ra s).1,
    fun rd ra rb h i hi => ?_⟩
  simp only [List.mem_cons, List.not_mem_nil, or_false] at hi
  obtain rfl | rfl | rfl := hi
  · exact (paddWritesSum.2 rd ra rb s).1 h
  · exact (pmultWritesProduct.2 rd ra rb s).1 h
  · exact (pdivmodWritesRemainder.2 rd ra rb s).1 (h.imp_right .inl)

end Sys2Proof.Machine
end

section
/-! PROOFS. The product of polynomials by its coefficients (`42_poly_ops.md` R90), and the document's other functions
(`43_aux_functions.md` R97 to R103). -/

namespace Sys2Proof.Machine

/-! ### Sequences and sums -/

/-- Sequences of one length with the same coefficients are equal. -/
theorem eq_of_coeff_eq {p q : Poly} (hlen : p.length = q.length) (h : ∀ i, coeff p i = coeff q i) : p = q := by
  refine List.ext_getElem hlen fun i hp hq => ?_
  simpa only [coeff, List.getD_eq_getElem, hp, hq] using h i

/-- The empty sequence has no coefficient but 0. -/
@[simp] theorem coeff_nil (i : Nat) : coeff [] i = 0 := rfl

/-- A sequence whose last coefficient is nonzero is normalised. -/
theorem normalised_of_coeff_ne_zero {p : Poly} {n : Nat} (hlen : p.length = n + 1) (h : coeff p n ≠ 0) :
    Normalised p := by
  refine ⟨List.ne_nil_of_length_eq_add_one hlen, fun hlast => absurd ?_ h⟩
  rw [List.getLast?_eq_getElem?, hlen] at hlast
  simpa [coeff] using congrArg (Option.getD · 0) hlast

/-- Nothing added on the right, with 0 spelled as a coefficient. -/
theorem byte_xor_zero (x : Byte) : x ^^^ 0 = x := BitVec.xor_zero

/-- Nothing added on the left, with 0 spelled as a coefficient. -/
theorem byte_zero_xor (x : Byte) : 0 ^^^ x = x := BitVec.zero_xor

/-- A sum is determined by its terms. -/
theorem xorSum_congr {n : Nat} {f g : Nat → Byte} (h : ∀ i < n, f i = g i) : xorSum n f = xorSum n g :=
  List.foldl_ext _ _ _ fun acc i hi => by rw [h i (List.mem_range.mp hi)]

/-- Zero terms at the end of a sum can be left out. -/
theorem xorSum_of_le {m n : Nat} (hmn : m ≤ n) {f : Nat → Byte} (h : ∀ i, m ≤ i → f i = 0) : xorSum n f = xorSum m f := by
  induction n, hmn using Nat.le_induction with
  | base => rfl
  | succ n hn ih => rw [xorSum_succ, ih, h n hn, byte_xor_zero]

/-! ### The product by its coefficients, R90 -/

/-- Accumulating at an index inside the sequence adds there and nowhere else. -/
theorem coeff_accumulate {r : Poly} {k : Nat} (hk : k < r.length) (v : Byte) (i : Nat) :
    coeff (accumulate r k v) i = if i = k then coeff r i ^^^ v else coeff r i := by
  obtain rfl | hi := eq_or_ne i k
  · simp [accumulate, coeff, hk, gfAdd]
  · simp [accumulate, coeff, hi, Ne.symm hi]

/-- Accumulating `f 0` to `f (n - 1)` from index `i` on adds `f (k - i)` at each index `k` of that stretch. -/
theorem coeff_foldl_accumulate (f : Nat → Byte) {i n : Nat} {r : Poly} (h : i + n ≤ r.length) (k : Nat) :
    coeff ((List.range n).foldl (fun r j => accumulate r (i + j) (f j)) r) k =
      coeff r k ^^^ if i ≤ k ∧ k < i + n then f (k - i) else 0 := by
  induction n with
  | zero => simp [show ¬ (i ≤ k ∧ k < i) by omega]
  | succ n ih =>
    have hlen : ((List.range n).foldl (fun r j => accumulate r (i + j) (f j)) r).length = r.length :=
      foldl_length _ (fun _ _ => accumulate_length _ _ _) _ r
    rw [List.range_succ, List.foldl_append, List.foldl_cons, List.foldl_nil, coeff_accumulate (by omega), ih (by omega)]
    obtain rfl | hk := eq_or_ne k (i + n)
    · simp
    · have hstretch : (i ≤ k ∧ k < i + (n + 1)) ↔ (i ≤ k ∧ k < i + n) := by omega
      simp only [hk, if_false, hstretch]

/-- The inner loop of the product keeps the length. -/
theorem mulRow_length (t : Tables) (p q r : Poly) (i : Nat) : (mulRow t p q r i).length = r.length :=
  foldl_length _ (fun _ _ => accumulate_length _ _ _) _ r

/-- The inner loop of the product adds `p[i] * q[k - i]` at every index `k` from `i` on. -/
theorem coeff_mulRow (t : Tables) (p q : Poly) {r : Poly} {i : Nat} (h : i + q.length ≤ r.length) (k : Nat) :
    coeff (mulRow t p q r i) k = coeff r k ^^^ if i ≤ k then gfMul t (coeff p i) (coeff q (k - i)) else 0 := by
  rw [mulRow, coeff_foldl_accumulate _ h]
  congr 1
  by_cases hk : k < i + q.length
  · simp only [hk, and_true]
  · rw [if_neg (not_and_of_not_right _ hk), coeff_of_length_le (p := q) (by omega), gfMul_zero_right, ite_self]

/-- The outer loop of the product adds the rows. -/
theorem coeff_foldl_mulRow (t : Tables) (p q : Poly) {r : Poly} {n : Nat} (h : n + q.length ≤ r.length + 1) (k : Nat) :
    coeff ((List.range n).foldl (mulRow t p q) r) k =
      coeff r k ^^^ xorSum n fun i => if i ≤ k then gfMul t (coeff p i) (coeff q (k - i)) else 0 := by
  induction n with
  | zero => exact BitVec.xor_zero.symm
  | succ n ih =>
    have hlen : ((List.range n).foldl (mulRow t p q) r).length = r.length :=
      foldl_length _ (mulRow_length t p q) _ r
    rw [List.range_succ, List.foldl_append, List.foldl_cons, List.foldl_nil, coeff_mulRow t p q (by omega),
      ih (by omega), xorSum_succ, BitVec.xor_assoc]

/-- The coefficients of the product are the convolution of the operands' (R90). -/
theorem coeff_polyMul (t : Tables) (p q : Poly) (k : Nat) : coeff (polyMul t p q) k = convolution t p q k := by
  have hterm (i : Nat) (hi : p.length ≤ i ∨ k + 1 ≤ i) :
      (if i ≤ k then gfMul t (coeff p i) (coeff q (k - i)) else 0) = 0 := by
    obtain hi | hi := hi
    · rw [coeff_of_length_le hi, gfMul_zero_left, ite_self]
    · exact if_neg (by omega)
  have hzeros : coeff (List.replicate (p.length + q.length - 1) 0) k = 0 := coeff_append_replicate_zero [] _ k
  rw [polyMul, asStated, coeff_foldl_mulRow t p q (by rw [List.length_replicate]; omega), hzeros, byte_zero_xor,
    ← xorSum_of_le (Nat.le_max_left _ (k + 1)) fun i hi => hterm i (.inl hi),
    xorSum_of_le (Nat.le_max_right p.length _) fun i hi => hterm i (.inr hi)]
  exact xorSum_congr fun i hi => if_pos (by omega)

section Factors

variable (t : Tables) (p : Poly)

/-- Nothing multiplies to 0. -/
theorem convolution_nil (k : Nat) : convolution t p [] k = 0 := by
  simp only [convolution, coeff_nil, gfMul_zero_right]
  exact xorSum_of_le (Nat.zero_le _) fun _ _ => rfl

/-- The constant term of a product. -/
theorem convolution_zero (q : Poly) : convolution t p q 0 = gfMul t (coeff p 0) (coeff q 0) := BitVec.zero_xor

/-- A factor's constant term multiplies in place, the rest of the factor one index up. -/
theorem convolution_cons_succ (c : Byte) (q : Poly) (k : Nat) :
    convolution t p (c :: q) (k + 1) = convolution t p q k ^^^ gfMul t (coeff p (k + 1)) c := by
  have hlower (i : Nat) (hi : i < k + 1) : coeff (c :: q) (k + 1 - i) = coeff q (k - i) := by
    rw [show k + 1 - i = k - i + 1 by omega, coeff_cons_succ]
  rw [convolution, xorSum_succ, xorSum_congr fun i hi => by rw [hlower i hi], convolution, Nat.sub_self]
  rfl

/-- The coefficients of the product with a constant. -/
theorem coeff_polyMul_singleton (a : Byte) (k : Nat) : coeff (polyMul t p [a]) k = gfMul t (coeff p k) a := by
  rw [coeff_polyMul]
  cases k with
  | zero => exact convolution_zero t p [a]
  | succ k => rw [convolution_cons_succ, convolution_nil, byte_zero_xor]

/-- The constant term of the product with a factor of degree 1. -/
theorem coeff_polyMul_pair_zero (a b : Byte) : coeff (polyMul t p [a, b]) 0 = gfMul t (coeff p 0) a := by
  rw [coeff_polyMul, convolution_zero]
  rfl

/-- The coefficients of the product with a factor of degree 1, above the constant term. -/
theorem coeff_polyMul_pair_succ (a b : Byte) (k : Nat) :
    coeff (polyMul t p [a, b]) (k + 1) = gfMul t (coeff p k) b ^^^ gfMul t (coeff p (k + 1)) a := by
  rw [coeff_polyMul, convolution_cons_succ, ← coeff_polyMul, coeff_polyMul_singleton]

/-! ### scal, strip, shift and copy, R97, R98, R100 and R101 -/

/-- `scal` multiplies coefficient by coefficient (R97). -/
theorem coeff_scal (a : Byte) (i : Nat) : coeff (scal t p a) i = gfMul t (coeff p i) a := by
  have hmap := List.getD_map (l := p) (d := 0) (n := i) fun c => gfMul t c a
  rwa [gfMul_zero_left] at hmap

/-- `scal` keeps the length (R97). -/
theorem scal_length (a : Byte) : (scal t p a).length = p.length := List.length_map _

/-- The product with a constant is `scal` (R97). -/
theorem polyMul_singleton (a : Byte) : polyMul t p [a] = scal t p a := by
  refine eq_of_coeff_eq ?_ fun k => ?_
  · rw [polyMul_length, scal_length]
    rfl
  · rw [coeff_polyMul_singleton, coeff_scal]

/-- `scal` by 0 leaves zeros (R97). -/
theorem scal_zero : scal t p 0 = List.replicate p.length 0 := by
  simp only [scal, gfMul_zero_right, List.map_const']

end Factors

/-- `scal` by 1 changes nothing (R97). -/
theorem scal_one (p : Poly) : scal builtTables p 1 = p := by simp only [scal, gfMul_one_right, List.map_id']

/-- `strip` of a nonempty sequence is `norm` (R98). -/
theorem strip_of_ne_nil {p : Poly} (h : p ≠ []) : strip p = .ok (norm p) :=
  if_neg fun hlen => h (List.length_eq_zero_iff.mp hlen)

/-- `strip` of a normalised sequence changes nothing (R98). -/
theorem strip_of_normalised {p : Poly} (h : Normalised p) : strip p = .ok p := by
  rw [strip_of_ne_nil h.1, norm_of_normalised h]

/-- The sum with zero is `norm` (R98). -/
theorem polyAdd_zero {p : Poly} (h : p ≠ []) : polyAdd p [0] = norm p := by
  have hlen : max p.length [(0 : Byte)].length = p.length := max_eq_left (List.length_pos_iff.mpr h)
  have hzero (i : Nat) : coeff [0] i = 0 := coeff_append_replicate_zero [] 1 i
  refine congrArg norm (eq_of_coeff_eq (by rw [List.length_map, List.length_range, hlen]) fun i => ?_)
  rw [coeff_map_range, hlen, hzero, gfAdd, byte_xor_zero]
  exact ite_eq_left_iff.mpr fun hi => (coeff_of_length_le (Nat.not_lt.mp hi)).symm

/-- The product with the indeterminate is `shift` (R100). -/
theorem polyMul_indeterminate (p : Poly) : polyMul builtTables p [0, 1] = shiftPoly p := by
  refine eq_of_coeff_eq (polyMul_length _ _ _) fun k => ?_
  cases k with
  | zero =>
    rw [coeff_polyMul_pair_zero, gfMul_zero_right]
    rfl
  | succ k =>
    rw [coeff_polyMul_pair_succ, gfMul_one_right, gfMul_zero_right, byte_xor_zero]
    rfl

/-- Settles O57: a product with a constant or with the indeterminate is read off coefficient by coefficient, and `strip` is
`norm`. -/
theorem auxiliaryFunctionsAsProductsAndSums : Obligations.AuxiliaryFunctionsAsProductsAndSums := fun p hp =>
  ⟨fun a => ⟨scal_length _ p a, fun i _ => coeff_scal _ p a i, polyMul_singleton _ p a⟩,
    scal_zero _ p, scal_one p, strip_of_ne_nil hp, strip_of_normalised (normalised_norm p),
    by rw [polyAdd_self]; rfl, rfl, polyAdd_zero hp, rfl, polyMul_indeterminate p, rfl,
    by rw [polyMul_singleton, scal_one]⟩

/-! ### reverse, R99 -/

/-- `reverse` drops the zeros above a nonzero coefficient and reverses what is left (R99). -/
theorem reversePoly_append (low : Poly) {c : Byte} {high : Poly} (hc : c ≠ 0) (hhigh : ∀ d ∈ high, d = 0) :
    reversePoly (low ++ [c] ++ high) = some (low ++ [c]).reverse := by
  have hdrop : (low ++ [c] ++ high).reverse.dropWhile (· == 0) = c :: low.reverse := by
    rw [List.reverse_append, List.reverse_concat,
      List.dropWhile_append_of_pos fun d hd => beq_iff_eq.mpr (hhigh d (List.mem_reverse.mp hd))]
    exact List.dropWhile_cons_of_neg (by simpa using hc)
  rw [reversePoly, hdrop, List.reverse_concat]

/-- `reverse` of zeros has no value (R99). -/
theorem reversePoly_of_zeros {p : Poly} (h : ∀ c ∈ p, c = 0) : reversePoly p = none := by
  have hdrop : p.reverse.dropWhile (· == 0) = [] :=
    List.dropWhile_eq_nil_iff.mpr fun c hc => beq_iff_eq.mpr (h c (List.mem_reverse.mp hc))
  rw [reversePoly, hdrop]

/-- With zeros above coefficient `k` and none there, `reverse` reverses the first `k + 1` coefficients (R99). -/
theorem reversePoly_eq_take {p : Poly} {k : Nat} (hk : k < p.length) (hne : coeff p k ≠ 0)
    (hhigh : ∀ j, k < j → coeff p j = 0) : reversePoly p = some (p.take (k + 1)).reverse := by
  have htop : coeff p k = p[k] := List.getD_eq_getElem p 0 hk
  have hzeros : ∀ d ∈ p.drop (k + 1), d = 0 := by
    intro d hd
    obtain ⟨i, hi, rfl⟩ := List.mem_drop_iff_getElem.mp hd
    exact (List.getD_eq_getElem p 0 _).symm.trans (hhigh (k + 1 + i) (by omega))
  have hsplit := reversePoly_append (p.take k) (htop ▸ hne) hzeros
  rwa [← List.take_succ_eq_append_getElem, List.take_append_drop] at hsplit

/-- The first `n` coefficients, read from the highest down. -/
theorem coeff_reverse_take {p : Poly} {n j : Nat} (hn : n ≤ p.length) (hj : j < n) :
    coeff (p.take n).reverse j = coeff p (n - 1 - j) := by
  have hlen : (p.take n).length = n := List.length_take_of_le hn
  rw [coeff, List.getD_reverse j (by omega), hlen, coeff, List.getD_eq_getElem?_getD, List.getElem?_take_of_lt (by omega),
    ← List.getD_eq_getElem?_getD]

/-- Settles O58: the sequence is cut after its highest nonzero coefficient and read from there down. -/
theorem reverseTrimsAndReverses : Obligations.ReverseTrimsAndReverses := by
  refine ⟨fun p k hk hne hhigh => ?_, fun p h => reversePoly_of_zeros h⟩
  have hcoeff (j : Nat) (hj : j ≤ k) : coeff (p.take (k + 1)).reverse j = coeff p (k - j) :=
    coeff_reverse_take hk (Nat.lt_succ_of_le hj)
  refine ⟨_, reversePoly_eq_take hk hne hhigh, ?_, hcoeff, ?_⟩
  · rw [List.length_reverse, List.length_take_of_le hk]
  · rwa [hcoeff 0 (Nat.zero_le k)]

/-! ### The generator polynomials, R102 and R103 -/

/-- `generator^e` is the power of the generator. -/
theorem generatorPower_builtTables (e : Nat) : generatorPower builtTables e = generatorTo e := by
  rw [generatorPower, readExp_builtTables]
  exact generatorTo_mod e

/-- `gf_pow` of the generator is its power. -/
theorem gfPow_two (e : Nat) : gfPow builtTables 2 e = .ok (generatorTo e) := by
  have h2 : generatorTo 1 = 2 := by decide
  rw [← h2, gfPow_builtTables fun h => generatorTo_ne_zero 1 h.1, repeatedProduct_generatorTo, Nat.one_mul]

/-- The factor of a position (R102, R103). -/
theorem rootFactor_builtTables (e : Nat) : rootFactor builtTables e = [1, generatorTo e] := by
  rw [rootFactor, generatorPower_builtTables]

/-- The product over one more position has one more factor (R103). -/
theorem createErasurePoly_concat (es : List Nat) (e : Nat) : createErasurePoly builtTables (es ++ [e]) =
    polyMul builtTables (createErasurePoly builtTables es) [1, generatorTo e] := by
  rw [← rootFactor_builtTables]
  exact List.foldl_append

/-- One coefficient more than positions (R103). -/
theorem createErasurePoly_length (es : List Nat) : (createErasurePoly builtTables es).length = es.length + 1 := by
  induction es using List.reverseRecOn with
  | nil => rfl
  | append_singleton es e ih =>
    rw [createErasurePoly_concat, polyMul_length, ih, List.length_append]
    rfl

/-- The leading coefficient is a product of powers of the generator, hence not 0. -/
theorem coeff_createErasurePoly_length_ne_zero (es : List Nat) :
    coeff (createErasurePoly builtTables es) es.length ≠ 0 := by
  induction es using List.reverseRecOn with
  | nil => decide
  | append_singleton es e ih =>
    have hpast : coeff (createErasurePoly builtTables es) (es.length + 1) = 0 :=
      coeff_of_length_le (createErasurePoly_length es).le
    rw [createErasurePoly_concat, List.length_append, List.length_singleton, coeff_polyMul_pair_succ, hpast, gfMul_zero_left,
      byte_xor_zero]
    exact fun h0 => (gfMul_eq_zero h0).elim ih (generatorTo_ne_zero e)

/-- Two factors of degree 1 can change places: with both, every coefficient has the terms of either order. -/
theorem polyMul_pair_right_comm (p : Poly) (a b : Byte) :
    polyMul builtTables (polyMul builtTables p [1, a]) [1, b] =
      polyMul builtTables (polyMul builtTables p [1, b]) [1, a] := by
  refine eq_of_coeff_eq (by simp only [polyMul_length, List.length_cons]) fun k => ?_
  have hmul (x : Byte) : gfMul builtTables (gfMul builtTables x a) b = gfMul builtTables (gfMul builtTables x b) a := by
    rw [gfMul_assoc, gfMul_comm a, gfMul_assoc]
  match k with
  | 0 => simp only [coeff_polyMul_pair_zero]
  | 1 =>
    simp only [coeff_polyMul_pair_succ, coeff_polyMul_pair_zero, gfMul_one_right]
    ac_rfl
  | k + 2 =>
    simp only [coeff_polyMul_pair_succ, gfMul_one_right, gfMul_xor_left, hmul]
    ac_rfl

/-- The product does not depend on the order of the positions (R103). -/
theorem createErasurePoly_perm {es es' : List Nat} (h : es.Perm es') :
    createErasurePoly builtTables es = createErasurePoly builtTables es' :=
  h.foldl_eq (rcomm := ⟨fun p _ _ => polyMul_pair_right_comm p _ _⟩) [1]

/-- The generator polynomial is the erasure polynomial of the positions 0 to N - 1 (R102, R103). -/
theorem createGenPoly_eq_createErasurePoly (t : Tables) (n : Nat) :
    createGenPoly t n = createErasurePoly t (List.range n) := rfl

/-- The generator polynomial is normalised (R102). -/
theorem normalised_createGenPoly (n : Nat) : Normalised (createGenPoly builtTables n) :=
  normalised_of_coeff_ne_zero (createErasurePoly_length (List.range n))
    (coeff_createErasurePoly_length_ne_zero (List.range n))

/-- Settles O59: the generator polynomial is the erasure polynomial of 0 to N - 1, and that is a product with one factor per
position, whose factors can change places. -/
theorem generatorPolynomialsAreProducts : Obligations.GeneratorPolynomialsAreProducts := by
  refine ⟨fun e => ⟨generatorPower_builtTables e, ?_⟩, fun n => ⟨?_, ?_, normalised_createGenPoly n, rfl⟩, rfl,
    by decide +kernel, createErasurePoly_length, createErasurePoly_concat, fun es es' => createErasurePoly_perm⟩
  · rw [generatorPower_builtTables, gfPow_two]
  · simp only [createGenPoly_eq_createErasurePoly, List.range_succ, createErasurePoly_concat]
  · rw [createGenPoly_eq_createErasurePoly, createErasurePoly_length, List.length_range]

end Sys2Proof.Machine
end

section
/-! PROOFS. Which condition raises which cause (`60_exceptions.md` R108 to R112), what a halted core does (R116), and that
faults are precise (R113, R115). -/

namespace Sys2Proof.Machine

/-! ### The conditions of the causes, R108 to R112 -/

/-- The command raises cause `c` in state `s`: the conditions of R108 to R110 and R112, command by command, with the order
of the tests of R114 (an empty source before the capacity). -/
def State.Raises (s : State) : Instr → Cause → Prop
  | .exprd _ n, c => 511 < n.toNat ∧ c = .indexOutOfRange
  | .logrd _ ra, c => s.readS ra = 0 ∧ c = .divisionByZero
  | .gfadd _ _ _, _ => False
  | .gfmul _ _ _, _ => False
  | .gfdiv _ _ rb, c => s.readS rb = 0 ∧ c = .divisionByZero
  | .gfinv _ ra, c => s.readS ra = 0 ∧ c = .divisionByZero
  | .gfpow _ ra n, c => (s.readS ra = 0 ∧ n.toNat = 0) ∧ c = .divisionByZero
  | .peval _ ra _, c => s.readP ra = [] ∧ c = .invalidDegree
  | .pmult _ ra rb, c => ((s.readP ra = [] ∨ s.readP rb = []) ∧ c = .invalidDegree) ∨
      (s.readP ra ≠ [] ∧ s.readP rb ≠ []) ∧
        Config.maxLen < (s.readP ra).length + (s.readP rb).length - 1 ∧ c = .capacityExceeded
  | .pdivmod _ ra rb, c => ((s.readP ra = [] ∨ s.readP rb = []) ∧ c = .invalidDegree) ∨
      (s.readP ra ≠ [] ∧ s.readP rb ≠ []) ∧
        ((s.readP ra).length < (s.readP rb).length ∨ (s.readP rb).length = 1) ∧ c = .invalidDegree
  | .padd _ ra rb, c => (s.readP ra = [] ∨ s.readP rb = []) ∧ c = .invalidDegree
  | .pderiv _ ra, c => s.readP ra = [] ∧ c = .invalidDegree

section SourceFaults

variable {α : Type} (s : State) (c : Cause)

/-- A result computed from one source, with no test of its own, is a fault exactly when the source is empty
(`42_poly_ops.md` R84). -/
theorem State.polySource_bind_ok_eq_error_iff (k : PReg) (f : Poly → α) :
    ((s.polySource k).bind fun p => .ok (f p)) = .error c ↔ s.readP k = [] ∧ c = .invalidDegree := by
  simp [bind_eq_error_iff, s.polySource_eq_error_iff]

/-- A result computed from two sources, with no test of its own, is a fault exactly when one of them is empty (R84). -/
theorem State.polySources_bind_ok_eq_error_iff (ra rb : PReg) (f : Poly × Poly → α) :
    ((s.polySources ra rb).bind fun pq => .ok (f pq)) = .error c ↔
      (s.readP ra = [] ∨ s.readP rb = []) ∧ c = .invalidDegree := by
  simp [bind_eq_error_iff, s.polySources_eq_error_iff]

/-- A result computed from two sources is a fault when one of them is empty, or when neither is and the computation is
(R84, `60_exceptions.md` R114). -/
theorem State.polySources_bind_eq_error_iff (ra rb : PReg) (f : Poly × Poly → Except Cause α) :
    (s.polySources ra rb).bind f = .error c ↔ ((s.readP ra = [] ∨ s.readP rb = []) ∧ c = .invalidDegree) ∨
      (s.readP ra ≠ [] ∧ s.readP rb ≠ []) ∧ f (s.readP ra, s.readP rb) = .error c := by
  obtain ⟨h, e⟩ | ⟨⟨ha, hb⟩, e⟩ := s.polySources_cases ra rb
  · rw [s.polySources_bind_of_nil h]
    simp [← not_or, h, @eq_comm _ c]
  · rw [s.polySources_bind_of_ne_nil ha hb]
    simp [ha, hb]

end SourceFaults

/-- On a core that is not halted a command enters a fault exactly when it raises that cause. -/
theorem exec_fault_iff (i : Instr) {s : State} (h : s.halted = false) :
    ∃ t, exec i s = .next t ∧ ∀ c, FaultEntered s t c (encode i) ↔ s.Raises i c := by
  cases i with
  | exprd rd n =>
    exact ⟨_, rfl, fun c => (State.finishS_fault_iff h _ rd _ c).trans (expEntry_eq_error_iff _ _ c)⟩
  | logrd rd ra =>
    exact ⟨_, rfl, fun c => (State.finishS_fault_iff h _ rd _ c).trans (logEntry_eq_error_iff _ _ c)⟩
  | gfadd rd ra rb => exact ⟨_, rfl, fun c => (State.finishS_fault_iff h _ rd _ c).trans ⟨nofun, nofun⟩⟩
  | gfmul rd ra rb => exact ⟨_, rfl, fun c => (State.finishS_fault_iff h _ rd _ c).trans ⟨nofun, nofun⟩⟩
  | gfdiv rd ra rb =>
    exact ⟨_, rfl, fun c => (State.finishS_fault_iff h _ rd _ c).trans (gfDiv_eq_error_iff _ _ _ c)⟩
  | gfinv rd ra =>
    exact ⟨_, rfl, fun c => (State.finishS_fault_iff h _ rd _ c).trans (gfInv_eq_error_iff _ _ c)⟩
  | gfpow rd ra n =>
    exact ⟨_, rfl, fun c => (State.finishS_fault_iff h _ rd _ c).trans (gfPow_eq_error_iff _ _ _ c)⟩
  | peval rd ra rb =>
    exact ⟨_, exec_peval rd ra rb s, fun c =>
      (State.finishS_fault_iff h _ rd _ c).trans (s.polySource_bind_ok_eq_error_iff c ra _)⟩
  | pmult rd ra rb =>
    refine ⟨_, exec_pmult rd ra rb s, fun c => (State.finishP_fault_iff h _ rd _ c).trans ?_⟩
    rw [s.polySources_bind_eq_error_iff, pmultResult_eq_error_iff, State.Raises]
  | pdivmod rd ra rb =>
    refine ⟨_, exec_pdivmod rd ra rb s, fun c => (State.finishP_fault_iff h _ rd _ c).trans ?_⟩
    rw [s.polySources_bind_eq_error_iff, pdivmodResult_eq_error_iff, State.Raises]
  | padd rd ra rb =>
    exact ⟨_, exec_padd rd ra rb s, fun c =>
      (State.finishP_fault_iff h _ rd _ c).trans (s.polySources_bind_ok_eq_error_iff c ra rb _)⟩
  | pderiv rd ra =>
    exact ⟨_, exec_pderiv rd ra s, fun c =>
      (State.finishP_fault_iff h _ rd _ c).trans (s.polySource_bind_ok_eq_error_iff c ra _)⟩

/-- Settles O51: among the conditions of all commands, these four are the ones whose cause is DivisionByZero. -/
theorem divisionByZeroExactly : Obligations.DivisionByZeroExactly := by
  intro i s h
  obtain ⟨t, ht, hfault⟩ := exec_fault_iff i h
  refine ⟨t, ht, (hfault _).trans ?_⟩
  cases i <;> simp [State.Raises]

/-- Settles O52: among the conditions of all commands, these are the ones whose cause is InvalidDegree; PDIVMOD's test of
the divisor comes after that of the sources, which has the same cause. -/
theorem invalidDegreeExactly : Obligations.InvalidDegreeExactly := by
  intro i s h
  obtain ⟨t, ht, hfault⟩ := exec_fault_iff i h
  refine ⟨t, ht, (hfault _).trans ?_⟩
  cases i
  case pdivmod rd ra rb =>
    by_cases hnil : s.readP ra = [] ∨ s.readP rb = []
    · simp [State.Raises, hnil]
    · simp [State.Raises, not_or.mp hnil]
  all_goals simp [State.Raises]

/-- Settles O53: EXPRD's condition is the only one whose cause is IndexOutOfRange, and PMULT's on nonempty sources the only
one whose cause is CapacityExceeded. -/
theorem indexAndCapacityFaultsExactly : Obligations.IndexAndCapacityFaultsExactly := by
  intro i s h
  obtain ⟨t, ht, hfault⟩ := exec_fault_iff i h
  refine ⟨t, ht, (hfault _).trans ?_, (hfault _).trans ?_⟩
  · cases i <;> simp [State.Raises]
  · cases i <;> simp [State.Raises, and_assoc]

/-! ### States with the same data and the same record -/

theorem SameData.refl (s : State) : SameData s s := ⟨fun _ => rfl, fun _ => rfl, rfl⟩

theorem SameData.trans {s t u : State} (hst : SameData s t) (htu : SameData t u) : SameData s u := by
  obtain ⟨hs, hp, htab⟩ := hst
  obtain ⟨hs', hp', htab'⟩ := htu
  exact ⟨fun k => (hs' k).trans (hs k), fun k => (hp' k).trans (hp k), htab'.trans htab⟩

theorem SameRecord.refl (s : State) : SameRecord s s := ⟨rfl, rfl⟩

theorem SameRecord.trans {s t u : State} (hst : SameRecord s t) (htu : SameRecord t u) : SameRecord s u :=
  ⟨htu.1.trans hst.1, htu.2.trans hst.2⟩

/-- HALTED is a bit of STATUS. -/
theorem SameRecord.halted_eq {s t : State} (h : SameRecord s t) : t.halted = s.halted := congrArg haltedField h.1

/-! ### A halted core, R116 -/

/-- On a halted core every operation but HostReset only answers: the issue and the writes are refused (`20_memory.md` R37,
R38, R40), the reads change nothing (R39, R41, R42). -/
theorem perform_of_halted {op : HostOp} {s : State} (h : s.halted = true) (hop : op ≠ .hostReset) :
    ∃ r, perform op s = .next (s.reply r) := by
  cases op with
  | hostReset => exact absurd rfl hop
  | hostIssue w => exact ⟨.refused, if_pos h⟩
  | hostWriteS i v => exact ⟨.refused, congrArg _ (if_pos h)⟩
  | hostWriteP k p => exact ⟨.refused, congrArg _ (if_pos h)⟩
  | hostReadS i => exact ⟨_, rfl⟩
  | hostReadP k => exact ⟨_, rfl⟩
  | hostReadStatus => exact ⟨_, rfl⟩
  | hostReadFCMD => exact ⟨_, rfl⟩

/-- A step of a halted core that performs no HostReset changes no data and no record; it takes the operation off the
host's list. -/
theorem step_of_halted {s : State} (h : s.halted = true) (hop : s.pending.head? ≠ some .hostReset) :
    ∃ t, step s = .next t ∧ t.pending = s.pending.tail ∧ SameRecord s t ∧ SameData s t := by
  cases hpend : s.pending with
  | nil => exact ⟨s, step_nil s hpend, hpend, .refl s, .refl s⟩
  | cons op rest =>
    have hne : op ≠ .hostReset := fun e => hop (by rw [hpend, e]; rfl)
    obtain ⟨r, hr⟩ := perform_of_halted (s := { s with pending := rest }) h hne
    exact ⟨_, (step_cons s op rest hpend).trans hr, rfl, .refl s, .refl s⟩

/-- Settles O54: a step without HostReset keeps STATUS, so one that clears HALTED performed it. -/
theorem onlyResetLeavesHaltedState : Obligations.OnlyResetLeavesHaltedState := by
  intro s t h ht
  have hkeep (hop : s.pending.head? ≠ some .hostReset) : SameRecord s t ∧ SameData s t := by
    obtain ⟨u, hu, -, hrecord, hdata⟩ := step_of_halted h hop
    obtain rfl : u = t := Host.Outcome.next.inj (hu.symm.trans ht)
    exact ⟨hrecord, hdata⟩
  refine ⟨fun hclear => ?_, hkeep⟩
  by_contra hop
  have hsame := (hkeep hop).1.halted_eq
  rw [hclear, h] at hsame
  cases hsame

/-! ### The word a decoded command came from -/

/-- A word is the packing of its fields (`30_encoding.md` R46). -/
theorem pack_fields (w : Word32) : pack (fieldOP w) (fieldRD w) (fieldRA w) (fieldRB w) (fieldIMM w) = w := by
  apply BitVec.eq_of_toNat_eq
  simp only [pack, fieldOP, fieldRD, fieldRA, fieldRB, fieldIMM, bitField, BitVec.toNat_ofNat]
  omega

section Forms

variable {op : Nat} {w : Word32}

/-- A word of form TI (R47). -/
theorem pack_of_zeroTI (hop : fieldOP w = op) (hz : zeroTI w = true) :
    pack op (fieldRD w) 0 0 (fieldIMM w) = w := by
  have hw := pack_fields w
  simp only [zeroTI, Bool.and_eq_true, beq_iff_eq] at hz
  rwa [hop, hz.1, hz.2] at hw

/-- A word of form SS or PP (R47). -/
theorem pack_of_zeroSS (hop : fieldOP w = op) (hz : zeroSS w = true) :
    pack op (fieldRD w) (fieldRA w) 0 0 = w := by
  have hw := pack_fields w
  simp only [zeroSS, Bool.and_eq_true, beq_iff_eq] at hz
  rwa [hop, hz.1, hz.2] at hw

/-- A word of form SSS, SPS or PPP (R47). -/
theorem pack_of_zeroSSS (hop : fieldOP w = op) (hz : zeroSSS w = true) :
    pack op (fieldRD w) (fieldRA w) (fieldRB w) 0 = w := by
  have hw := pack_fields w
  rwa [hop, beq_iff_eq.mp hz] at hw

/-- A word of form SSI (R47). -/
theorem pack_of_zeroSSI (hop : fieldOP w = op) (hz : zeroSSI w = true) :
    pack op (fieldRD w) (fieldRA w) 0 (fieldIMM w) = w := by
  have hw := pack_fields w
  rwa [hop, beq_iff_eq.mp hz] at hw

/-- A row of the decoder gives back the word when the row's command does under the row's test. -/
theorem encode_of_whenZero {z : Bool} {i j : Instr} (h : whenZero z j = .ok i) (hj : z = true → encode j = w) :
    encode i = w := by
  cases z with
  | false => cases h
  | true =>
    cases h
    exact hj rfl

/-- A word that spells a command is the word that encodes it (R46, R50). -/
theorem encode_of_decode {i : Instr} (h : decode w = .ok i) : encode i = w := by
  unfold decode at h
  split at h
  case h_1 hop => exact encode_of_whenZero h (pack_of_zeroTI hop)
  case h_2 hop => exact encode_of_whenZero h (pack_of_zeroSS hop)
  case h_3 hop => exact encode_of_whenZero h (pack_of_zeroSSS hop)
  case h_4 hop => exact encode_of_whenZero h (pack_of_zeroSSS hop)
  case h_5 hop => exact encode_of_whenZero h (pack_of_zeroSSS hop)
  case h_6 hop => exact encode_of_whenZero h (pack_of_zeroSS hop)
  case h_7 hop => exact encode_of_whenZero h (pack_of_zeroSSI hop)
  case h_8 hop => exact encode_of_whenZero h (pack_of_zeroSSS hop)
  case h_9 hop => exact encode_of_whenZero h (pack_of_zeroSSS hop)
  case h_10 hop => exact encode_of_whenZero h (pack_of_zeroSSS hop)
  case h_11 hop => exact encode_of_whenZero h (pack_of_zeroSSS hop)
  case h_12 hop => exact encode_of_whenZero h (pack_of_zeroSS hop)
  case h_13 => cases h

end Forms

/-! ### Precise faults, R113 and R115 -/

/-- A command leaves the host's list alone, and keeps the record or enters a fault. -/
theorem exec_record_cases (i : Instr) (s : State) :
    ∃ t, exec i s = .next t ∧ t.pending = s.pending ∧ (SameRecord s t ∨ ∃ c, FaultEntered s t c (encode i)) := by
  obtain ⟨t, ht, ⟨_, _, -, hw⟩ | ⟨_, _, -, hw⟩ | ⟨c, -, hf⟩⟩ := commandChangesOnlyItsDestination i s
  · obtain ⟨-, -, -, -, hrecord, -, hpend, -⟩ := hw
    exact ⟨t, ht, hpend, .inl hrecord⟩
  · obtain ⟨-, -, -, -, hrecord, -, hpend, -⟩ := hw
    exact ⟨t, ht, hpend, .inl hrecord⟩
  · obtain ⟨hstatus, hfcmd, hdata, hresets, hpend, hreplies⟩ := hf
    exact ⟨t, ht, hpend, .inr ⟨c, hstatus, hfcmd, hdata, hresets, hpend, hreplies⟩⟩

/-- The operation `op` from `s` to `t` was the issue of a word that faulted: FCMD holds it and no register or table has
changed (R113). -/
def FailedIssue (op : HostOp) (s t : State) : Prop := op = .hostIssue t.fcmd ∧ SameData s t

/-- An admitted issue of a word that spells a command executes it (`20_memory.md` R37). -/
theorem hostIssue_of_ok {w : Word32} {i : Instr} {s : State} (h : s.halted = false) (hdec : decode w = .ok i) :
    hostIssue w s = exec i (s.reply .accepted) := by
  simp [hostIssue, h, hdec]

/-- An admitted issue of a word that spells none raises IllegalCommand (R37). -/
theorem hostIssue_of_error {w : Word32} {e : Reject} {s : State} (h : s.halted = false) (hdec : decode w = .error e) :
    hostIssue w s = .next ((s.reply .accepted).raise .illegalCommand w) := by
  simp [hostIssue, h, hdec]

/-- An issue on a core that is not halted leaves it not halted or has failed. -/
theorem hostIssue_of_not_halted (w : Word32) {s : State} (h : s.halted = false) :
    ∃ t, hostIssue w s = .next t ∧ t.pending = s.pending ∧
      (t.halted = false ∨ t.halted = true ∧ FailedIssue (.hostIssue w) s t) := by
  cases hdec : decode w with
  | error e => exact ⟨_, hostIssue_of_error h hdec, rfl, .inr ⟨State.halted_raise _ _ w, rfl, .refl s⟩⟩
  | ok i =>
    rw [hostIssue_of_ok h hdec]
    obtain ⟨t, ht, hpend, hrecord | ⟨c, hstatus, hfcmd, hdata, -⟩⟩ := exec_record_cases i (s.reply .accepted)
    · exact ⟨t, ht, hpend, .inl (hrecord.halted_eq.trans h)⟩
    · have hhalted : t.halted = true := by rw [State.halted, hstatus, haltedField_statusWord]
      exact ⟨t, ht, hpend, .inr ⟨hhalted, by rw [hfcmd, encode_of_decode hdec], hdata⟩⟩

/-- An operation on a core that is not halted leaves it not halted, or was an issue that has failed. -/
theorem perform_of_not_halted (op : HostOp) {s : State} (h : s.halted = false) :
    ∃ t, perform op s = .next t ∧ t.pending = s.pending ∧
      (t.halted = false ∨ t.halted = true ∧ FailedIssue op s t) := by
  cases op with
  | hostIssue w => exact hostIssue_of_not_halted w h
  | hostReset => exact ⟨_, rfl, rfl, .inl s.halted_afterReset⟩
  | hostWriteS i v => exact ⟨_, rfl, by simp [hostWriteS, h], .inl (by simp [hostWriteS, h])⟩
  | hostWriteP k p =>
    refine ⟨_, rfl, ?_⟩
    by_cases hlen : p.length > Config.maxLen <;> simp [hostWriteP, h, hlen]
  | hostReadS i => exact ⟨_, rfl, rfl, .inl h⟩
  | hostReadP k => exact ⟨_, rfl, rfl, .inl h⟩
  | hostReadStatus => exact ⟨_, rfl, rfl, .inl h⟩
  | hostReadFCMD => exact ⟨_, rfl, rfl, .inl h⟩

/-- A run of one more step is the step and then the run. -/
theorem run_succ {s u : State} (h : step s = .next u) (n : Nat) : core.run (n + 1) s = core.run n u := by
  have hstep : core.step s = .next u := h
  simp only [Host.Core.run, hstep]

/-- A run of a halted core with no HostReset changes no data and no record. -/
theorem run_of_halted (n : Nat) {s t : State} (h : s.halted = true) (hreset : HostOp.hostReset ∉ s.pending)
    (hrun : core.run n s = .next t) : SameRecord s t ∧ SameData s t := by
  induction n generalizing s with
  | zero =>
    obtain rfl : s = t := Host.Outcome.next.inj hrun
    exact ⟨.refl s, .refl s⟩
  | succ n ih =>
    obtain ⟨u, hu, hpend, hrecord, hdata⟩ := step_of_halted h fun e => hreset (List.mem_of_head? e)
    rw [run_succ hu] at hrun
    obtain ⟨hrecord', hdata'⟩ := ih (hrecord.halted_eq.trans h)
      (fun hmem => hreset (List.mem_of_mem_tail (hpend ▸ hmem))) hrun
    exact ⟨hrecord.trans hrecord', hdata.trans hdata'⟩

/-- Settles O56, by induction on the host's list: the first operation is the failed issue, after which the halted core
changes nothing, or it leaves the core not halted, and the failed issue is among the rest. -/
theorem faultsArePrecise : Obligations.FaultsArePrecise := by
  intro s t
  induction hops : s.pending generalizing s with
  | nil =>
    intro h _ hrun ht
    obtain rfl : s = t := Host.Outcome.next.inj hrun
    rw [h] at ht
    cases ht
  | cons op rest ih =>
    intro h hreset hrun ht
    have hrest : HostOp.hostReset ∉ rest := fun hmem => hreset (List.mem_cons_of_mem op hmem)
    obtain ⟨u, hu, hpend, hcases⟩ := perform_of_not_halted op (s := { s with pending := rest }) h
    rw [← step_cons s op rest hops] at hu
    rw [List.length_cons, run_succ hu] at hrun
    obtain hrunning | ⟨hhalted, rfl, hdata⟩ := hcases
    · obtain ⟨before, after, w, v, rfl, hv, hkept⟩ := ih u hpend hrunning hrest hrun ht
      exact ⟨op :: before, after, w, v, rfl, (run_succ hu _).trans hv, hkept⟩
    · obtain ⟨hrecord, hdata'⟩ := run_of_halted _ hhalted (hpend ▸ hrest) hrun
      exact ⟨[], rest, u.fcmd, s, rfl, rfl, h, hrecord.2, SameData.trans (s := s) hdata hdata'⟩

end Sys2Proof.Machine
end


section
/-! PROOFS. The decoder against the encoder and against the opcode map (`30_encoding.md` R46 to R50, R54). -/

namespace Sys2Proof.Machine

/-! ### Encoding and decoding -/

/-- Decoding reads each field of a packed word back, and the fields a form does not use were packed as zeros. -/
theorem decode_encode (i : Instr) : decode (encode i) = .ok i := by
  cases i <;>
    simp [encode, decode, whenZero, zeroTI, zeroSS, zeroSSS, zeroSSI, fieldOP_pack, fieldRD_pack, fieldRA_pack,
      fieldRB_pack, fieldIMM_pack]

/-- Settles O2: the decoder reads back what the encoder packs. -/
theorem decodeEncodeRoundTrip : Obligations.DecodeEncodeRoundTrip := decode_encode

/-- Settles O3: a word is the packing of its fields, and a row's must-be-zero fields are the zeros its encoding packs. -/
theorem encodeDecodeWholeWord : Obligations.EncodeDecodeWholeWord := fun _ _ => encode_of_decode

/-- Settles O1, word by word. -/
theorem specWordsDecode : Obligations.SpecWordsDecode :=
  ⟨rfl, rfl, rfl, rfl, rfl, rfl, rfl, rfl, rfl⟩

/-! ### Mask and match, R48 and R50 -/

/-- The word of a command satisfies the mask and match of the command's row. -/
theorem wellFormedWord_encode (i : Instr) : wellFormedWord (encode i) = true := by
  cases i with
  | exprd rd imm => exact Laws.WordLegal.exprd rd imm
  | logrd rd ra => exact Laws.WordLegal.logrd rd ra
  | gfadd rd ra rb => exact Laws.WordLegal.gfadd rd ra rb
  | gfmul rd ra rb => exact Laws.WordLegal.gfmul rd ra rb
  | gfdiv rd ra rb => exact Laws.WordLegal.gfdiv rd ra rb
  | gfinv rd ra => exact Laws.WordLegal.gfinv rd ra
  | gfpow rd ra imm => exact Laws.WordLegal.gfpow rd ra imm
  | peval rd ra rb => exact Laws.WordLegal.peval rd ra rb
  | pmult rd ra rb => exact Laws.WordLegal.pmult rd ra rb
  | pdivmod rd ra rb => exact Laws.WordLegal.pdivmod rd ra rb
  | padd rd ra rb => exact Laws.WordLegal.padd rd ra rb
  | pderiv rd ra => exact Laws.WordLegal.pderiv rd ra

/-- A word that meets a mask in `p` has `p`'s bits wherever the mask has ones. -/
theorem extractLsb'_of_and_eq {w m p : Word32} (h : w &&& m = p) {start len : Nat}
    (hm : m.extractLsb' start len = BitVec.allOnes len) : w.extractLsb' start len = p.extractLsb' start len := by
  rw [← h, BitVec.extractLsb'_and, hm, BitVec.and_allOnes]

/-- Every row's mask covers the opcode. -/
theorem opBits_of_spells {r : OpRow} (hr : r ∈ opcodeMap) {w : Word32} (h : r.spells w = true) :
    opBits w = opBits r.pattern := by
  have hmask : ∀ r ∈ opcodeMap, r.mask.extractLsb' 28 4 = BitVec.allOnes 4 := by decide
  exact extractLsb'_of_and_eq (beq_iff_eq.mp h) (hmask r hr)

/-- No two rows have one opcode. -/
theorem opcodeMap_opBits_inj : ∀ r ∈ opcodeMap, ∀ r' ∈ opcodeMap, opBits r'.pattern = opBits r.pattern → r' = r := by
  decide

section Masks

variable {w p : Word32}

/-- RA and RB of a word that meets the mask of form TI (`30_encoding.md` R47, R48). -/
theorem zero_of_mask_ti (h : w &&& 0xF0FF0000 = p) (hp : raBits p = 0 ∧ rbBits p = 0) : raBits w = 0 ∧ rbBits w = 0 := by
  have hra : w.extractLsb' 20 4 = p.extractLsb' 20 4 := extractLsb'_of_and_eq h (by decide)
  have hrb : w.extractLsb' 16 4 = p.extractLsb' 16 4 := extractLsb'_of_and_eq h (by decide)
  rwa [raBits, rbBits, hra, hrb]

/-- RB and IMM of a word that meets the mask of forms SS and PP (R47, R48). -/
theorem zero_of_mask_ss (h : w &&& 0xF00FFFFF = p) (hp : rbBits p = 0 ∧ immBits p = 0) :
    rbBits w = 0 ∧ immBits w = 0 := by
  have hrb : w.extractLsb' 16 4 = p.extractLsb' 16 4 := extractLsb'_of_and_eq h (by decide)
  have himm : w.extractLsb' 0 16 = p.extractLsb' 0 16 := extractLsb'_of_and_eq h (by decide)
  rwa [rbBits, immBits, hrb, himm]

/-- IMM of a word that meets the mask of forms SSS, SPS and PPP (R47, R48). -/
theorem zero_of_mask_sss (h : w &&& 0xF000FFFF = p) (hp : immBits p = 0) : immBits w = 0 :=
  (extractLsb'_of_and_eq h (by decide)).trans hp

/-- RB of a word that meets the mask of form SSI (R47, R48). -/
theorem zero_of_mask_ssi (h : w &&& 0xF00F0000 = p) (hp : rbBits p = 0) : rbBits w = 0 := by
  have hrb : w.extractLsb' 16 4 = p.extractLsb' 16 4 := extractLsb'_of_and_eq h (by decide)
  rwa [rbBits, hrb]

end Masks

/-- A word a row spells decodes, row by row: the mask covers the opcode and the form's must-be-zero fields. -/
theorem exists_decode_of_spells {r : OpRow} (hr : r ∈ opcodeMap) {w : Word32} (h : r.spells w = true) :
    ∃ i, decode w = .ok i := by
  have hop := opBits_of_spells hr h
  have hmask : w &&& r.mask = r.pattern := beq_iff_eq.mp h
  simp only [opcodeMap, List.mem_cons, List.not_mem_nil, or_false] at hr
  obtain rfl | rfl | rfl | rfl | rfl | rfl | rfl | rfl | rfl | rfl | rfl | rfl := hr
  · exact ⟨_, (exprdReadsExpEntry.1 w hop).1 (zero_of_mask_ti hmask (by decide))⟩
  · exact ⟨_, (logrdReadsLogEntry.1 w hop).1 (zero_of_mask_ss hmask (by decide))⟩
  · exact ⟨_, (gfaddWritesXor.1 w hop).1 (zero_of_mask_sss hmask (by decide))⟩
  · exact ⟨_, (gfmulWritesProduct.1 w hop).1 (zero_of_mask_sss hmask (by decide))⟩
  · exact ⟨_, (gfdivWritesQuotient.1 w hop).1 (zero_of_mask_sss hmask (by decide))⟩
  · exact ⟨_, (gfinvWritesInverse.1 w hop).1 (zero_of_mask_ss hmask (by decide))⟩
  · exact ⟨_, (gfpowWritesPower.1 w hop).1 (zero_of_mask_ssi hmask (by decide))⟩
  · exact ⟨_, (pevalWritesValue.1 w hop).1 (zero_of_mask_sss hmask (by decide))⟩
  · exact ⟨_, (pmultWritesProduct.1 w hop).1 (zero_of_mask_sss hmask (by decide))⟩
  · exact ⟨_, (pdivmodWritesRemainder.1 w hop).1 (zero_of_mask_sss hmask (by decide))⟩
  · exact ⟨_, (paddWritesSum.1 w hop).1 (zero_of_mask_sss hmask (by decide))⟩
  · exact ⟨_, (pderivWritesDerivative.1 w hop).1 (zero_of_mask_ss hmask (by decide))⟩

/-- A word decodes exactly when a row of the opcode map spells it (R50). -/
theorem exists_decode_iff (w : Word32) : (∃ i, decode w = .ok i) ↔ wellFormedWord w = true := by
  constructor
  · rintro ⟨i, hi⟩
    rw [← encode_of_decode hi]
    exact wellFormedWord_encode i
  · intro h
    obtain ⟨r, hr, hspells⟩ := List.any_eq_true.mp h
    exact exists_decode_of_spells hr hspells

/-- A row of the decoder never answers "reserved opcode". -/
theorem whenZero_ne_reservedOpcode (z : Bool) (i : Instr) : whenZero z i ≠ .error .reservedOpcode := by
  cases z <;> nofun

/-- The decoder's last row is the one of the four opcodes that no row before it has (R50). -/
theorem decode_eq_reservedOpcode_iff (w : Word32) : decode w = .error .reservedOpcode ↔
    opBits w = 0x0 ∨ opBits w = 0xD ∨ opBits w = 0xE ∨ opBits w = 0xF := by
  have hlt : fieldOP w < 16 := fieldOP_eq w ▸ (opBits w).isLt
  have hfour : (opBits w = 0x0 ∨ opBits w = 0xD ∨ opBits w = 0xE ∨ opBits w = 0xF) ↔
      fieldOP w = 0x0 ∨ fieldOP w = 0xD ∨ fieldOP w = 0xE ∨ fieldOP w = 0xF := by
    simp only [fieldOP_eq, ← BitVec.toNat_inj]
    rfl
  rw [hfour]
  unfold decode
  split
  case h_13 =>
    refine iff_of_true rfl ?_
    simp only [imp_false] at *
    omega
  all_goals exact iff_of_false (whenZero_ne_reservedOpcode _ _) (by omega)

/-- Settles O4: a row's mask covers the opcode, which no two rows share, and the form's must-be-zero fields. -/
theorem legalWordsMatchOneRow : Obligations.LegalWordsMatchOneRow := by
  refine fun w => ⟨exists_decode_iff w, fun h => ?_, decode_eq_reservedOpcode_iff w⟩
  obtain ⟨r, hr, hspells⟩ := List.any_eq_true.mp h
  refine ⟨r, hr, hspells, fun r' hr' hspells' => opcodeMap_opBits_inj r hr r' hr' ?_⟩
  rw [← opBits_of_spells hr' hspells', opBits_of_spells hr hspells]

end Sys2Proof.Machine
end

section
/-! PROOFS. The operations of the host port, one by one (`20_memory.md` R36 to R42), and the machine right after reset
(`10_state.md` R25). -/

namespace Sys2Proof.Machine

/-! ### One statement per host operation, R36 to R42 -/

/-- Settles O5: an admitted issue is `exec` of the decoded command or the fault entry, a refused one only answers. -/
theorem stepIssuesDecodedCommand : Obligations.StepIssuesDecodedCommand := by
  intro s w rest hpend
  have hstep : step s = hostIssue w { s with pending := rest } := step_cons s _ rest hpend
  refine ⟨fun h i hi => ?_, fun h e he => ?_, fun h => ?_⟩
  · rw [hstep, hostIssue_of_ok (s := { s with pending := rest }) h hi]
    rfl
  · rw [hstep, hostIssue_of_error (s := { s with pending := rest }) h he]
    exact ⟨_, rfl, State.faultEntered_raise _ _ w⟩
  · exact ⟨_, hstep.trans (if_pos h), .refl s, .refl s, rfl, rfl, rfl⟩

/-- Settles O6: a word no row spells does not decode. -/
theorem illegalWordRaisesIllegalCommand : Obligations.IllegalWordRaisesIllegalCommand := by
  intro s w rest hpend h hw
  cases hdec : decode w with
  | ok i =>
    rw [(exists_decode_iff w).mp ⟨i, hdec⟩] at hw
    cases hw
  | error e =>
    obtain ⟨t, ht, hstatus, hfcmd, hdata, hhost⟩ := (stepIssuesDecodedCommand s w rest hpend).2.1 h e hdec
    exact ⟨t, ht, hstatus, hfcmd, hdata, hhost⟩

/-- Settles O7: an admitted write is `writeS`, a refused one only answers. -/
theorem hostWriteSWritesOneRegister : Obligations.HostWriteSWritesOneRegister := by
  intro s i v rest hpend
  have hstep : step s = .next (hostWriteS i v { s with pending := rest }) := step_cons s _ rest hpend
  refine ⟨fun h => ?_, fun h => ?_⟩
  · have haccepted : hostWriteS i v { s with pending := rest } =
        ({ s with pending := rest }.writeS i v).reply .accepted := by
      simp [hostWriteS, h]
    refine ⟨_, hstep.trans (congrArg _ haccepted), ?_⟩
    exact ⟨by simp, fun k hk => by simp [hk], fun _ => rfl, rfl, .refl s, rfl, rfl, rfl⟩
  · exact ⟨_, hstep.trans (congrArg _ (if_pos h)), .refl s, .refl s, rfl, rfl, rfl⟩

/-- Settles O8: an admitted write is `writeP`, a refused one only answers. -/
theorem hostWritePWritesOneRegister : Obligations.HostWritePWritesOneRegister := by
  intro s k p rest hpend
  have hstep : step s = .next (hostWriteP k p { s with pending := rest }) := step_cons s _ rest hpend
  refine ⟨fun h hlen => ?_, fun h => ?_⟩
  · have haccepted : hostWriteP k p { s with pending := rest } =
        ({ s with pending := rest }.writeP k p).reply .accepted := by
      simp [hostWriteP, h, Nat.not_lt.mpr hlen]
    refine ⟨_, hstep.trans (congrArg _ haccepted), ?_⟩
    exact ⟨by simp, fun k hk => by simp [hk], fun _ => rfl, rfl, .refl s, rfl, rfl, rfl⟩
  · have hrefused : hostWriteP k p { s with pending := rest } = { s with pending := rest }.reply .refused := by
      obtain h | h := h <;> simp [hostWriteP, h]
    exact ⟨_, hstep.trans (congrArg _ hrefused), .refl s, .refl s, rfl, rfl, rfl⟩

/-- Settles O9: a read answers and does nothing else. -/
theorem hostReadsAnswerAndChangeNothing : Obligations.HostReadsAnswerAndChangeNothing := fun s rest =>
  ⟨fun _ hpend => ⟨_, step_cons s _ rest hpend, .refl s, .refl s, rfl, rfl, rfl⟩,
    fun _ hpend => ⟨_, step_cons s _ rest hpend, .refl s, .refl s, rfl, rfl, rfl⟩,
    fun hpend => ⟨_, step_cons s _ rest hpend, .refl s, .refl s, rfl, rfl, rfl⟩,
    fun hpend => ⟨_, step_cons s _ rest hpend, .refl s, .refl s, rfl, rfl, rfl⟩⟩

/-- Settles O10: HostReset is `afterReset`, in every state. -/
theorem hostResetGivesResetValues : Obligations.HostResetGivesResetValues := fun s rest hpend =>
  ⟨_, step_cons s _ rest hpend, State.readP_afterReset { s with pending := rest }, rfl, rfl, rfl,
    State.halted_afterReset { s with pending := rest }, rfl, rfl⟩

/-! ### The machine right after reset, R25 -/

/-- The polynomial registers are empty after reset. -/
@[simp] theorem State.readP_reset (k : PReg) : State.reset.readP k = [] := by
  simp [State.readP, State.reset]

/-- Settles O11: the tables are the constructed ones, which hold the powers and their exponents. -/
theorem resetStateHoldsResetValues : Obligations.ResetStateHoldsResetValues :=
  ⟨State.readP_reset, rfl, rfl, rfl, rfl, readExp_builtTables_mod,
    fun _ h => ⟨Nat.le_of_lt_succ (readLog_spec h).1, (readLog_spec h).2⟩⟩

/-- Settles O42: the registers are empty and the record is zero. -/
theorem resetMeetsInvariant : Obligations.ResetMeetsInvariant :=
  ⟨rfl, fun k => by simp, .inl ⟨rfl, rfl⟩⟩

end Sys2Proof.Machine
end

section
/-! PROOFS. What a command writes, how a step ends, the invariant every step keeps (`10_state.md` R24), and what a command's
result depends on (`42_poly_ops.md` R83). -/

namespace Sys2Proof.Machine

/-! ### What a command leaves in the polynomial registers -/

section Results

variable {α : Type} {s : State}

/-- A result computed from one source is no fault only when the source holds a polynomial and the computation is none. -/
theorem State.polySource_bind_eq_ok {k : PReg} {f : Poly → Except Cause α} {r : α}
    (h : (s.polySource k).bind f = .ok r) : s.readP k ≠ [] ∧ f (s.readP k) = .ok r := by
  by_cases hk : s.readP k = []
  · rw [s.polySource_bind_of_nil hk] at h
    cases h
  · exact ⟨hk, s.polySource_bind_of_ne_nil hk f ▸ h⟩

/-- A result computed from two sources is no fault only when both hold polynomials and the computation is none. -/
theorem State.polySources_bind_eq_ok {ra rb : PReg} {f : Poly × Poly → Except Cause α} {r : α}
    (h : (s.polySources ra rb).bind f = .ok r) :
    s.readP ra ≠ [] ∧ s.readP rb ≠ [] ∧ f (s.readP ra, s.readP rb) = .ok r := by
  by_cases hnil : s.readP ra = [] ∨ s.readP rb = []
  · rw [s.polySources_bind_of_nil hnil] at h
    cases h
  · obtain ⟨ha, hb⟩ := not_or.mp hnil
    exact ⟨ha, hb, s.polySources_bind_of_ne_nil ha hb f ▸ h⟩

end Results

/-- PMULT's result fits MAXLEN (`42_poly_ops.md` R91). -/
theorem pmultResult_eq_ok {t : Tables} {p q r : Poly} (h : pmultResult t p q = .ok r) :
    p.length + q.length - 1 ≤ Config.maxLen ∧ polyMul t p q = r := by
  unfold pmultResult at h
  split at h
  case isTrue => cases h
  case isFalse hlen => exact ⟨Nat.not_lt.mp hlen, Except.ok.inj h⟩

/-- PDIVMOD's result is that of a divisor of length other than 1 that is not the longer operand (R93). -/
theorem pdivmodResult_eq_ok {t : Tables} {p q r : Poly} (h : pdivmodResult t p q = .ok r) :
    q.length ≤ p.length ∧ q.length ≠ 1 ∧ polyDivrem t p q = r := by
  unfold pdivmodResult at h
  split at h
  case isTrue => cases h
  case isFalse hlen =>
    split at h
    case isTrue => cases h
    case isFalse hone => exact ⟨Nat.not_lt.mp hlen, hone, Except.ok.inj h⟩

/-- The sequence a polynomial command writes is not empty, and fits MAXLEN when the registers did. -/
theorem exec_of_polyDest {i : Instr} {rd : PReg} (hd : polyDest i = some rd) (s : State) :
    ∃ r, exec i s = .next (s.finishP (encode i) rd r) ∧
      ∀ p, r = .ok p → 1 ≤ p.length ∧ (s.PolysFit → p.length ≤ Config.maxLen) := by
  cases i <;> cases hd
  case pmult ra rb =>
    refine ⟨_, exec_pmult rd ra rb s, fun p hp => ?_⟩
    obtain ⟨ha, hb, hp⟩ := State.polySources_bind_eq_ok hp
    obtain ⟨hlen, rfl⟩ := pmultResult_eq_ok hp
    have := List.length_pos_iff.mpr ha
    have := List.length_pos_iff.mpr hb
    dsimp only at hlen ⊢
    rw [polyMul_length]
    exact ⟨by omega, fun _ => hlen⟩
  case pdivmod ra rb =>
    refine ⟨_, exec_pdivmod rd ra rb s, fun p hp => ?_⟩
    obtain ⟨-, hb, hp⟩ := State.polySources_bind_eq_ok hp
    obtain ⟨hlen, hone, rfl⟩ := pdivmodResult_eq_ok hp
    have := List.length_pos_iff.mpr hb
    dsimp only at hlen hone ⊢
    rw [polyDivrem_length _ _ _ hlen]
    exact ⟨by omega, fun hfit => (Nat.sub_le _ 1).trans (hfit rb)⟩
  case padd ra rb =>
    refine ⟨_, exec_padd rd ra rb s, fun p hp => ?_⟩
    obtain ⟨ha, -, hp⟩ := State.polySources_bind_eq_ok hp
    cases hp
    exact ⟨(norm_length _).1, fun hfit => (polyAdd_length_le _ ha).trans (max_le (hfit ra) (hfit rb))⟩
  case pderiv ra =>
    refine ⟨_, exec_pderiv rd ra s, fun p hp => ?_⟩
    obtain ⟨-, hp⟩ := State.polySource_bind_eq_ok hp
    cases hp
    obtain ⟨hpos, hle⟩ := polyDeriv_length (s.readP ra)
    have := two_le_maxLen
    exact ⟨hpos, fun hfit => hle.trans (max_le (by omega) ((Nat.sub_le _ 1).trans (hfit ra)))⟩

/-- Ending a command with a scalar destination leaves the polynomial registers alone. -/
@[simp] theorem State.readP_finishS (s : State) (w : Word32) (rd : SReg) (r : Except Cause Byte) (k : PReg) :
    (s.finishS w rd r).readP k = s.readP k := by
  cases r <;> rfl

/-- After a command a polynomial register is as before, or holds a sequence that is not empty and fits MAXLEN when the
registers did. -/
theorem exec_readP_cases {i : Instr} {s t : State} (h : exec i s = .next t) (k : PReg) :
    t.readP k = s.readP k ∨ 1 ≤ (t.readP k).length ∧ (s.PolysFit → (t.readP k).length ≤ Config.maxLen) := by
  obtain ⟨rd, r, -, -, he⟩ | ⟨rd, -, hd, -, -⟩ := exec_cases i s
  · cases h.symm.trans he
    exact .inl (s.readP_finishS _ rd r k)
  · obtain ⟨r, he, hr⟩ := exec_of_polyDest hd s
    cases h.symm.trans he
    cases r with
    | error c => exact .inl rfl
    | ok p =>
      obtain rfl | hk := eq_or_ne k rd
      · exact .inr (by simpa only [State.finishP, State.readP_writeP_same] using hr p rfl)
      · exact .inl (s.readP_writeP_of_ne p hk)

/-- Settles O47: the sequence a command writes is not empty. -/
theorem commandNeverEmptiesRegister : Obligations.CommandNeverEmptiesRegister := by
  intro i s t k h hnil
  obtain hsame | ⟨hpos, -⟩ := exec_readP_cases h k
  · exact hsame ▸ hnil
  · rw [hnil] at hpos
    cases hpos

/-- Polynomials that fit MAXLEN do so after a command (`10_state.md` R14). -/
theorem exec_polysFit {i : Instr} {s t : State} (h : exec i s = .next t) (hfit : s.PolysFit) : t.PolysFit := by
  intro k
  obtain hsame | ⟨-, hle⟩ := exec_readP_cases h k
  · exact hsame ▸ hfit k
  · exact hle hfit

/-! ### What a step does -/

/-- From `s` to `t` no fault was entered and no reset done: the record and the tables stay, and polynomials that fit MAXLEN
still do. -/
def KeepsRecord (s t : State) : Prop := SameRecord s t ∧ t.tables = s.tables ∧ (s.PolysFit → t.PolysFit)

/-- From `s` to `t` the operation `op` was the issue of a word that faulted, with a cause it can raise (R113). -/
def IssueFaulted (op : HostOp) (s t : State) : Prop :=
  ∃ w c, op = .hostIssue w ∧ MayRaise c w ∧ t.status = statusWord c ∧ t.fcmd = w ∧ SameData s t

/-- The operation `op` was a reset, and `t` has the reset values (R126). -/
def WasReset (op : HostOp) (t : State) : Prop :=
  op = .hostReset ∧ (∀ k, t.readP k = []) ∧ t.tables = builtTables ∧ t.status = 0 ∧ t.fcmd = 0

/-- A state with the same data and record has kept its record. -/
theorem KeepsRecord.of_same {s t : State} (hdata : SameData s t) (hrecord : SameRecord s t) : KeepsRecord s t := by
  obtain ⟨-, hp, htab⟩ := hdata
  exact ⟨hrecord, htab, fun hfit k => (hp k).symm ▸ hfit k⟩

/-- A command keeps the record or enters a fault its word can raise. -/
theorem exec_step_cases {i : Instr} {w : Word32} (hdec : decode w = .ok i) (s : State) :
    ∃ t, exec i s = .next t ∧ SameHostSide s t ∧ (KeepsRecord s t ∨ IssueFaulted (.hostIssue w) s t) := by
  obtain ⟨t, ht, ⟨_, _, -, hw⟩ | ⟨_, _, -, hw⟩ | ⟨c, hc, hf⟩⟩ := commandChangesOnlyItsDestination i s
  · obtain ⟨-, -, -, htab, hrecord, hhost⟩ := hw
    exact ⟨t, ht, hhost, .inl ⟨hrecord, htab, exec_polysFit ht⟩⟩
  · obtain ⟨-, -, -, htab, hrecord, hhost⟩ := hw
    exact ⟨t, ht, hhost, .inl ⟨hrecord, htab, exec_polysFit ht⟩⟩
  · obtain ⟨hstatus, hfcmd, hdata, hhost⟩ := hf
    have hraise : MayRaise c w := by simpa only [MayRaise, hdec] using hc
    exact ⟨t, ht, hhost, .inr ⟨w, c, rfl, hraise, hstatus, hfcmd.trans (encode_of_decode hdec), hdata⟩⟩

/-- A step that changes no data and no record has kept the record. -/
theorem step_cases_of_same {s : State} {rest : List HostOp} {r : Reply} (op : HostOp)
    (h : ∃ t, step s = .next t ∧ SameData s t ∧ SameRecord s t ∧ Performed s t rest r) :
    ∃ t r, step s = .next t ∧ t.pending = rest ∧ t.replies = s.replies ++ [r] ∧
      (KeepsRecord s t ∨ IssueFaulted op s t ∨ WasReset op t) := by
  obtain ⟨t, ht, hdata, hrecord, -, hrest, hreply⟩ := h
  exact ⟨t, r, ht, hrest, hreply, .inl (.of_same hdata hrecord)⟩

/-- A step performs the oldest operation and answers it; it keeps the record, enters a fault of the issued word, or
resets. -/
theorem step_cons_cases {s : State} {op : HostOp} {rest : List HostOp} (hpend : s.pending = op :: rest) :
    ∃ t r, step s = .next t ∧ t.pending = rest ∧ t.replies = s.replies ++ [r] ∧
      (KeepsRecord s t ∨ IssueFaulted op s t ∨ WasReset op t) := by
  obtain ⟨hreadS, hreadP, hreadStatus, hreadFCMD⟩ := hostReadsAnswerAndChangeNothing s rest
  cases op with
  | hostReset =>
    obtain ⟨t, ht, hp, htab, hstatus, hfcmd, -, hrest, hreply⟩ := hostResetGivesResetValues s rest hpend
    exact ⟨t, _, ht, hrest, hreply, .inr (.inr ⟨rfl, hp, htab, hstatus, hfcmd⟩)⟩
  | hostIssue w =>
    obtain ⟨hok, herror, hhalted⟩ := stepIssuesDecodedCommand s w rest hpend
    cases h : s.halted with
    | true => exact step_cases_of_same _ (hhalted h)
    | false =>
      cases hdec : decode w with
      | ok i =>
        obtain ⟨t, ht, ⟨-, hrest, hreply⟩, hcases⟩ := exec_step_cases hdec _
        exact ⟨t, _, (hok h i hdec).trans ht, hrest, hreply, hcases.imp_right .inl⟩
      | error e =>
        obtain ⟨t, ht, hstatus, hfcmd, hdata, -, hrest, hreply⟩ := herror h e hdec
        have hraise : MayRaise .illegalCommand w := by simp only [MayRaise, hdec]
        exact ⟨t, _, ht, hrest, hreply, .inr (.inl ⟨w, _, rfl, hraise, hstatus, hfcmd, hdata⟩)⟩
  | hostWriteS i v =>
    obtain ⟨hwrite, hhalted⟩ := hostWriteSWritesOneRegister s i v rest hpend
    cases h : s.halted with
    | true => exact step_cases_of_same _ (hhalted h)
    | false =>
      obtain ⟨t, ht, -, -, hp, htab, hrecord, -, hrest, hreply⟩ := hwrite h
      exact ⟨t, _, ht, hrest, hreply, .inl ⟨hrecord, htab, fun hfit k => (hp k).symm ▸ hfit k⟩⟩
  | hostWriteP k p =>
    obtain ⟨hwrite, hrefused⟩ := hostWritePWritesOneRegister s k p rest hpend
    by_cases h : s.halted = true ∨ Config.maxLen < p.length
    · exact step_cases_of_same _ (hrefused h)
    · obtain ⟨hrunning, hlen⟩ := not_or.mp h
      obtain ⟨t, ht, hsame, hother, -, htab, hrecord, -, hrest, hreply⟩ :=
        hwrite (Bool.eq_false_of_not_eq_true hrunning) (Nat.not_lt.mp hlen)
      refine ⟨t, _, ht, hrest, hreply, .inl ⟨hrecord, htab, fun hfit j => ?_⟩⟩
      obtain rfl | hj := eq_or_ne j k
      · exact hsame ▸ Nat.not_lt.mp hlen
      · exact (hother j hj).symm ▸ hfit j
  | hostReadS i => exact step_cases_of_same _ (hreadS i hpend)
  | hostReadP k => exact step_cases_of_same _ (hreadP k hpend)
  | hostReadStatus => exact step_cases_of_same _ (hreadStatus hpend)
  | hostReadFCMD => exact step_cases_of_same _ (hreadFCMD hpend)

/-- A step keeps the record, enters a fault of the word just issued, or resets; with nothing pending it changes nothing. -/
theorem step_cases {s t : State} (ht : step s = .next t) :
    KeepsRecord s t ∨ ∃ op, s.pending.head? = some op ∧ (IssueFaulted op s t ∨ WasReset op t) := by
  cases hpend : s.pending with
  | nil =>
    obtain rfl : s = t := Host.Outcome.next.inj ((step_nil s hpend).symm.trans ht)
    exact .inl (.of_same (.refl s) (.refl s))
  | cons op rest =>
    obtain ⟨u, -, hu, -, -, hcases⟩ := step_cons_cases hpend
    obtain rfl : u = t := Host.Outcome.next.inj (hu.symm.trans ht)
    exact hcases.imp_right fun h => ⟨op, rfl, h⟩

/-- Settles O45: an operation is performed and answered, and with none pending the step changes nothing. -/
theorem everyStepCompletes : Obligations.EveryStepCompletes := by
  intro s
  cases hpend : s.pending with
  | nil => exact ⟨s, step_nil s hpend, hpend, fun _ => rfl, fun h => absurd rfl h⟩
  | cons op rest =>
    obtain ⟨t, r, ht, hrest, hreply, -⟩ := step_cons_cases hpend
    exact ⟨t, ht, hrest, nofun, fun _ => ⟨r, hreply⟩⟩

/-- Settles O49: of the three ends of a step only the reset writes the tables. -/
theorem tablesAreNeverWritten : Obligations.TablesAreNeverWritten := by
  intro s t ht
  obtain ⟨-, htab, -⟩ | ⟨op, hop, ⟨_, _, -, -, -, -, -, -, htab⟩ | ⟨rfl, -, htab, -⟩⟩ := step_cases ht
  · exact .inl htab
  · exact .inl htab
  · exact .inr ⟨hop, htab⟩

/-- Settles O55: an issue keeps the record or enters a fault of its word; it is no reset. -/
theorem faultEntryIsWholeEffect : Obligations.FaultEntryIsWholeEffect := by
  intro s t w rest hpend h ht
  obtain ⟨hrecord, -⟩ | ⟨op, hop, hcases⟩ := step_cases ht
  · refine ⟨fun hhalted => ?_, fun _ => hrecord⟩
    rw [hrecord.halted_eq, h] at hhalted
    cases hhalted
  · obtain rfl : HostOp.hostIssue w = op := by simpa only [hpend, List.head?_cons, Option.some.injEq] using hop
    obtain ⟨w', c, hw, hraise, hstatus, hfcmd, hdata⟩ | ⟨hreset, -⟩ := hcases
    · cases hw
      refine ⟨fun _ => ⟨c, hstatus, hraise, hfcmd, hdata⟩, fun hrunning => ?_⟩
      exact absurd hstatus (State.status_ne_of_not_halted hrunning c)
    · cases hreset

/-! ### The invariant, R24 -/

/-- A legal record depends on STATUS and FCMD only. -/
theorem State.RecordLegal.of_same {s t : State} (h : s.RecordLegal) (hsame : SameRecord s t) : t.RecordLegal := by
  rwa [State.RecordLegal, hsame.1, hsame.2]

/-- Settles O43: each of the three ends of a step keeps the invariant. -/
theorem stepKeepsInvariant : Obligations.StepKeepsInvariant := by
  rintro s t ⟨htables, hfit, hlegal⟩ ht
  obtain ⟨hrecord, htab, hkeep⟩ | ⟨op, -, hfault | hreset⟩ := step_cases ht
  · exact ⟨htab.trans htables, hkeep hfit, hlegal.of_same hrecord⟩
  · obtain ⟨w, c, -, hraise, hstatus, hfcmd, -, hp, htab⟩ := hfault
    exact ⟨htab.trans htables, fun k => (hp k).symm ▸ hfit k, .inr ⟨c, hstatus, hfcmd.symm ▸ hraise⟩⟩
  · obtain ⟨-, hp, htab, hstatus, hfcmd⟩ := hreset
    exact ⟨htab, fun k => by simp [hp k], .inl ⟨hstatus, hfcmd⟩⟩

/-- A run keeps the invariant. -/
theorem run_keeps_inv (n : Nat) {s t : State} (hinv : s.Inv) (hrun : core.run n s = .next t) : t.Inv := by
  induction n generalizing s with
  | zero =>
    obtain rfl : s = t := Host.Outcome.next.inj hrun
    exact hinv
  | succ n ih =>
    obtain ⟨u, hu, -⟩ := everyStepCompletes s
    rw [run_succ hu] at hrun
    exact ih (stepKeepsInvariant s u hinv hu) hrun

/-- STATUS with a cause recorded is one of the values of `10_state.md` R19, and its CAUSE is not 0. -/
theorem statusWord_values (c : Cause) :
    statusWord c ∈ ([0x00000000, 0x00000003, 0x00000005, 0x00000007, 0x00000009, 0x0000000B] : List Word32) ∧
      causeField (statusWord c) ≠ 0 := by
  cases c <;> decide

/-- Settles O44: the reset state with any operations pending meets the invariant, and a legal record is zero or one of the
five causes. -/
theorem reachableStatesAreConsistent : Obligations.ReachableStatesAreConsistent := by
  intro ops n t hrun
  obtain ⟨hreset, hempty, hzero⟩ := resetMeetsInvariant
  obtain ⟨htab, hfit, hlegal⟩ := run_keeps_inv n (s := { State.reset with pending := ops }) ⟨hreset, hempty, hzero⟩ hrun
  refine ⟨hfit, htab, ?_⟩
  obtain ⟨hstatus, hfcmd⟩ | ⟨c, hstatus, -⟩ := hlegal
  · simp [State.halted, State.cause, hstatus, hfcmd, haltedField, causeField]
  · obtain ⟨hvalue, hcause⟩ := statusWord_values c
    refine ⟨hstatus.symm ▸ hvalue, ?_, fun h => absurd hstatus (State.status_ne_of_not_halted h c)⟩
    simpa [State.halted, State.cause, hstatus] using hcause

/-! ### What a command depends on, R83 and R23 -/

/-- A polynomial source is determined by its register. -/
theorem State.polySource_congr {s u : State} {k : PReg} (h : s.readP k = u.readP k) :
    s.polySource k = u.polySource k := by
  rw [State.polySource, h, State.polySource]

/-- Two polynomial sources are determined by their registers. -/
theorem State.polySources_congr {s u : State} {ra rb : PReg} (ha : s.readP ra = u.readP ra)
    (hb : s.readP rb = u.readP rb) : s.polySources ra rb = u.polySources ra rb := by
  rw [State.polySources, polySource_congr ha, polySource_congr hb, State.polySources]

/-- In two states that agree on a command's sources the command ends with one result. -/
theorem exec_cases_of_sourcesAgree {i : Instr} {s u : State} (h : SourcesAgree i s u) :
    (∃ rd r, scalarDest i = some rd ∧ polyDest i = none ∧ exec i s = .next (s.finishS (encode i) rd r) ∧
        exec i u = .next (u.finishS (encode i) rd r)) ∨
      ∃ rd r, polyDest i = some rd ∧ scalarDest i = none ∧ exec i s = .next (s.finishP (encode i) rd r) ∧
        exec i u = .next (u.finishP (encode i) rd r) := by
  cases i with
  | exprd rd imm =>
    refine .inl ⟨rd, _, rfl, rfl, rfl, ?_⟩
    simp only [exec, execExprd, show s.tables = u.tables from h]
  | logrd rd ra =>
    obtain ⟨ht, ha⟩ := h
    refine .inl ⟨rd, _, rfl, rfl, rfl, ?_⟩
    simp only [exec, execLogrd, ht, ha]
  | gfadd rd ra rb =>
    obtain ⟨ha, hb⟩ := h
    refine .inl ⟨rd, _, rfl, rfl, rfl, ?_⟩
    simp only [exec, execGfadd, ha, hb]
  | gfmul rd ra rb =>
    obtain ⟨ht, ha, hb⟩ := h
    refine .inl ⟨rd, _, rfl, rfl, rfl, ?_⟩
    simp only [exec, execGfmul, ht, ha, hb]
  | gfdiv rd ra rb =>
    obtain ⟨ht, ha, hb⟩ := h
    refine .inl ⟨rd, _, rfl, rfl, rfl, ?_⟩
    simp only [exec, execGfdiv, ht, ha, hb]
  | gfinv rd ra =>
    obtain ⟨ht, ha⟩ := h
    refine .inl ⟨rd, _, rfl, rfl, rfl, ?_⟩
    simp only [exec, execGfinv, ht, ha]
  | gfpow rd ra imm =>
    obtain ⟨ht, ha⟩ := h
    refine .inl ⟨rd, _, rfl, rfl, rfl, ?_⟩
    simp only [exec, execGfpow, ht, ha]
  | peval rd ra rb =>
    obtain ⟨ht, ha, hb⟩ := h
    refine .inl ⟨rd, _, rfl, rfl, exec_peval rd ra rb s, ?_⟩
    rw [exec_peval, State.polySource_congr ha, ht, hb]
  | pmult rd ra rb =>
    obtain ⟨ht, ha, hb⟩ := h
    refine .inr ⟨rd, _, rfl, rfl, exec_pmult rd ra rb s, ?_⟩
    rw [exec_pmult, State.polySources_congr ha hb, ht]
  | pdivmod rd ra rb =>
    obtain ⟨ht, ha, hb⟩ := h
    refine .inr ⟨rd, _, rfl, rfl, exec_pdivmod rd ra rb s, ?_⟩
    rw [exec_pdivmod, State.polySources_congr ha hb, ht]
  | padd rd ra rb =>
    obtain ⟨ha, hb⟩ := h
    refine .inr ⟨rd, _, rfl, rfl, exec_padd rd ra rb s, ?_⟩
    rw [exec_padd, State.polySources_congr ha hb]
  | pderiv rd ra =>
    refine .inr ⟨rd, _, rfl, rfl, exec_pderiv rd ra s, ?_⟩
    rw [exec_pderiv, State.polySource_congr (k := ra) h]

/-- Settles O48: the one result is written in both states, or its cause is entered in both. -/
theorem resultDependsOnSourcesOnly : Obligations.ResultDependsOnSourcesOnly := by
  intro i s u hs hu hsources
  obtain ⟨rd, r, hd, hd', hes, heu⟩ | ⟨rd, r, hd, hd', hes, heu⟩ := exec_cases_of_sourcesAgree hsources
  · refine ⟨_, _, hes, heu, ?_⟩
    cases r with
    | ok v => simp [State.finishS, hs, hu, hd, hd']
    | error c => simp [State.finishS]
  · refine ⟨_, _, hes, heu, ?_⟩
    cases r with
    | ok p => simp [State.finishP, hs, hu, hd, hd']
    | error c => simp [State.finishP]

end Sys2Proof.Machine
end

section
/-! PROOFS. The arithmetic laws of the field (`41_field_ops.md` R79, R81). -/

namespace Sys2Proof.Machine

/-- The exponent of `gf_pow` counts modulo 255 on a nonzero operand. -/
theorem gfPow_mod (t : Tables) {x : Byte} (hx : x ≠ 0) (n : Nat) : gfPow t x n = gfPow t x (n % 255) := by
  rw [gfPow_of_ne_zero t hx (by omega), gfPow_of_ne_zero t hx (by omega)]
  simp only [Nat.mul_mod_mod]

/-- Settles O32: the exponents are the function's, and multiply as powers of the generator do. -/
theorem fieldPowerIsRepeatedProduct : Obligations.FieldPowerIsRepeatedProduct := by
  refine fun x n => ⟨?_, ?_, fun hx => ⟨fun hn => ?_, gfPow_of_ne_zero _ hx, gfPow_builtTables fun h => hx h.1,
    gfPow_mod _ hx n⟩⟩
  · rintro rfl rfl
    rfl
  · rintro rfl hn
    exact gfPow_zero_left _ hn.ne'
  · exact Nat.mul_le_mul (Nat.le_of_lt_succ (readLog_spec hx).1) hn

/-- A nonzero right factor cancels. -/
theorem gfMul_right_cancel {x y z : Byte} (hz : z ≠ 0) (h : gfMul builtTables x z = gfMul builtTables y z) : x = y := by
  have hdiff : gfMul builtTables (x ^^^ y) z = 0 := by
    rw [gfMul_xor_left, h]
    exact BitVec.xor_self
  exact BitVec.xor_eq_zero_iff.mp ((gfMul_eq_zero hdiff).resolve_right hz)

/-- Division undoes multiplication. -/
theorem gfDiv_gfMul (x : Byte) {y : Byte} (hy : y ≠ 0) : gfDiv builtTables (gfMul builtTables x y) y = .ok x := by
  obtain ⟨z, hz⟩ := exists_eq_ok fun c e => hy ((gfDiv_eq_error_iff builtTables (gfMul builtTables x y) y c).mp e).1
  rw [hz, gfMul_right_cancel hy (gfMul_of_gfDiv_eq_ok hz)]

/-- A nonzero element has an inverse. -/
theorem exists_gfInv {x : Byte} (hx : x ≠ 0) : ∃ z, gfInv builtTables x = .ok z ∧ gfMul builtTables x z = 1 := by
  obtain ⟨z, hz⟩ := exists_eq_ok fun c e => hx ((gfInv_eq_error_iff builtTables x c).mp e).1
  exact ⟨z, hz, gfMul_of_gfInv_eq_ok hz⟩

/-- The power 0. -/
theorem gfPow_zero {x : Byte} (hx : x ≠ 0) : gfPow builtTables x 0 = .ok 1 := gfPow_builtTables fun h => hx h.1

/-- The power 1. -/
theorem gfPow_one (x : Byte) : gfPow builtTables x 1 = .ok x := by
  rw [gfPow_builtTables fun h => Nat.one_ne_zero h.2, repeatedProduct_succ]
  exact congrArg _ (gfMul_one_right x)

/-- Settles O33, law by law. -/
theorem fieldLawsHold : Obligations.FieldLawsHold :=
  ⟨fun _ => exists_gfInv, gfMul_xor_right, fun _ => ⟨BitVec.xor_self, BitVec.xor_self⟩, fun x _ => gfDiv_gfMul x,
    fun _ => gfPow_zero, gfPow_one, fun x y => by simp [gfDiv_eq_error_iff], fun x => by simp [gfInv_eq_error_iff],
    fun x n => by simp [gfPow_eq_error_iff], fun x => ⟨gfMul_zero_left _ x, gfMul_zero_right _ x⟩,
    fun _ => gfDiv_zero_left _, fun _ hn => gfPow_zero_left _ hn.ne'⟩

end Sys2Proof.Machine
end

section
/-! PROOFS. The product of polynomials as a convolution, and its value at a point (`42_poly_ops.md` R90,
`95_test_vectors.md` S11). -/

namespace Sys2Proof.Machine

/-! ### Sums -/

/-- A sum of zeros. -/
theorem xorSum_eq_zero {n : Nat} {f : Nat → Byte} (h : ∀ i < n, f i = 0) : xorSum n f = 0 := by
  induction n with
  | zero => rfl
  | succ n ih => rw [xorSum_succ, ih fun i hi => h i (by omega), h n (by omega), byte_xor_zero]

/-- A sum can be taken from its last term down. -/
theorem xorSum_reflect (n : Nat) (f : Nat → Byte) : xorSum n f = xorSum n fun i => f (n - 1 - i) := by
  induction n with
  | zero => rfl
  | succ n ih =>
    have hshift : (xorSum n fun i => f (n + 1 - 1 - (i + 1))) = xorSum n f := by
      rw [ih]
      exact xorSum_congr fun i hi => congrArg f (by omega)
    rw [xorSum_succ, xorSum_succ_left n fun i => f (n + 1 - 1 - i), hshift]
    exact BitVec.xor_comm _ _

/-- A sum of sums is the sum of both. -/
theorem xorSum_xor (n : Nat) (f g : Nat → Byte) : (xorSum n fun i => f i ^^^ g i) = xorSum n f ^^^ xorSum n g := by
  induction n with
  | zero => exact (byte_xor_zero 0).symm
  | succ n ih =>
    simp only [xorSum_succ, ih]
    ac_rfl

/-- A sum with one term that is not 0. -/
theorem xorSum_eq_term {n m : Nat} (hm : m < n) {f : Nat → Byte} (h : ∀ i < n, i ≠ m → f i = 0) : xorSum n f = f m := by
  have hbelow : xorSum m f = 0 := xorSum_eq_zero fun i hi => h i (by omega) (by omega)
  have hupto : xorSum (m + 1) f = f m := by rw [xorSum_succ, hbelow, byte_zero_xor]
  induction n, hm using Nat.le_induction with
  | base => exact hupto
  | succ n hn ih =>
    rw [xorSum_succ, ih fun i hi => h i (by omega), h n (by omega) (by omega), byte_xor_zero]

/-! ### The product, R90 -/

/-- A convolution does not depend on the order of its operands. -/
theorem convolution_comm (p q : Poly) (k : Nat) : convolution builtTables p q k = convolution builtTables q p k := by
  rw [convolution, xorSum_reflect, convolution]
  refine xorSum_congr fun i hi => ?_
  rw [gfMul_comm, show k + 1 - 1 - i = k - i by omega, show k - (k - i) = i by omega]

/-- A product does not depend on the order of its operands. -/
theorem polyMul_comm (p q : Poly) : polyMul builtTables p q = polyMul builtTables q p := by
  refine eq_of_coeff_eq (by rw [polyMul_length, polyMul_length, Nat.add_comm]) fun k => ?_
  rw [coeff_polyMul, coeff_polyMul, convolution_comm]

/-- The last coefficient of a product is the product of the last coefficients. -/
theorem coeff_polyMul_last {p q : Poly} {m n : Nat} (hp : p.length = m + 1) (hq : q.length = n + 1) :
    coeff (polyMul builtTables p q) (m + n) = gfMul builtTables (coeff p m) (coeff q n) := by
  rw [coeff_polyMul, convolution, xorSum_eq_term (m := m) (by omega), Nat.add_sub_cancel_left]
  intro i _ hi
  obtain hlt | hgt := Nat.lt_or_gt_of_ne hi
  · rw [coeff_of_length_le (p := q) (by omega), gfMul_zero_right]
  · rw [coeff_of_length_le (p := p) (by omega), gfMul_zero_left]

/-- The last coefficient of a normalised sequence other than `[0]` is not 0. -/
theorem Normalised.coeff_last_ne_zero {p : Poly} (h : Normalised p) (hne : p ≠ [0]) {m : Nat} (hm : p.length = m + 1) :
    coeff p m ≠ 0 := by
  intro h0
  refine hne (h.2 ?_)
  have hlt : m < p.length := by omega
  rw [List.getLast?_eq_getElem?, hm, Nat.add_sub_cancel, List.getElem?_eq_getElem hlt, ← List.getD_eq_getElem p 0 hlt]
  exact congrArg some h0

/-- Settles O37: the coefficients are the convolution, and the last one is a product of nonzero elements when the operands are
normalised and not zero. -/
theorem polynomialProductIsConvolution : Obligations.PolynomialProductIsConvolution := by
  intro p q hp hq
  obtain ⟨m, hm⟩ := Nat.exists_eq_add_one_of_ne_zero (List.length_pos_iff.mpr hp).ne'
  obtain ⟨n, hn⟩ := Nat.exists_eq_add_one_of_ne_zero (List.length_pos_iff.mpr hq).ne'
  refine ⟨polyMul_length _ p q, coeff_polyMul _ p q, polyMul_comm p q, polyMul_singleton _ p, ?_, ?_⟩
  · rw [polyMul_comm, polyMul_singleton, scal_zero]
  · intro hpn hqn hp0 hq0
    refine normalised_of_coeff_ne_zero (n := m + n) (by rw [polyMul_length]; omega) ?_
    rw [coeff_polyMul_last hm hn]
    exact fun h => (gfMul_eq_zero h).elim (hpn.coeff_last_ne_zero hp0 hm) (hqn.coeff_last_ne_zero hq0 hn)

/-! ### The value of a product, S11 -/

/-- The value as a sum over any number of terms that covers the sequence. -/
theorem polyEval_eq_xorSum_of_le {p : Poly} {n : Nat} (h : p.length ≤ n) (x : Byte) : polyEval builtTables p x =
    xorSum n fun i => gfMul builtTables (coeff p i) (repeatedProduct builtTables x i) := by
  rw [polyEval_eq_xorSum]
  refine (xorSum_of_le h fun i hi => ?_).symm
  rw [coeff_of_length_le hi, gfMul_zero_left]

/-- A sequence whose coefficients are the sums of two others' has the sum of their values. -/
theorem polyEval_of_coeff_eq_xor {p q r : Poly} (h : ∀ k, coeff r k = coeff p k ^^^ coeff q k) (x : Byte) :
    polyEval builtTables r x = polyEval builtTables p x ^^^ polyEval builtTables q x := by
  rw [polyEval_eq_xorSum_of_le (p := r) (n := r.length + p.length + q.length) (by omega),
    polyEval_eq_xorSum_of_le (p := p) (n := r.length + p.length + q.length) (by omega),
    polyEval_eq_xorSum_of_le (p := q) (n := r.length + p.length + q.length) (by omega), ← xorSum_xor]
  exact xorSum_congr fun i _ => by rw [h, gfMul_xor_left]

/-- A sequence of zeros has the value 0. -/
theorem polyEval_of_coeff_eq_zero {p : Poly} (h : ∀ k, coeff p k = 0) (x : Byte) : polyEval builtTables p x = 0 := by
  rw [polyEval_eq_xorSum]
  exact xorSum_eq_zero fun i _ => by rw [h, gfMul_zero_left]

/-- `scal` multiplies the value. -/
theorem polyEval_scal (p : Poly) (c x : Byte) :
    polyEval builtTables (scal builtTables p c) x = gfMul builtTables (polyEval builtTables p x) c := by
  rw [polyEval_eq_xorSum, scal_length, polyEval_eq_xorSum p, gfMul_xorSum_left]
  refine xorSum_congr fun i _ => ?_
  rw [coeff_scal, gfMul_assoc, gfMul_comm c, gfMul_assoc]

/-- One coefficient more in a factor adds the other factor times it, the rest of the product one index up. -/
theorem coeff_polyMul_cons (p : Poly) (c : Byte) (q : Poly) (k : Nat) : coeff (polyMul builtTables p (c :: q)) k =
    coeff (0 :: polyMul builtTables p q) k ^^^ coeff (scal builtTables p c) k := by
  cases k with
  | zero =>
    rw [coeff_polyMul, convolution_zero, coeff_scal]
    exact BitVec.zero_xor.symm
  | succ k => rw [coeff_polyMul, convolution_cons_succ, coeff_cons_succ, coeff_scal, coeff_polyMul]

/-- The value of a product is the product of the values, by induction on the second factor along Horner's method. -/
theorem polyEval_polyMul (p q : Poly) (x : Byte) : polyEval builtTables (polyMul builtTables p q) x =
    gfMul builtTables (polyEval builtTables p x) (polyEval builtTables q x) := by
  induction q with
  | nil =>
    have hzero (k : Nat) : coeff (polyMul builtTables p []) k = 0 := by rw [coeff_polyMul, convolution_nil]
    exact (polyEval_of_coeff_eq_zero hzero x).trans (gfMul_zero_right _ _).symm
  | cons c q ih =>
    rw [polyEval_of_coeff_eq_xor (coeff_polyMul_cons p c q), polyEval_cons, polyEval_cons, ih, polyEval_scal]
    simp only [gfAdd, byte_xor_zero, gfMul_xor_right, gfMul_assoc]

/-- Settles O38, for empty operands too. -/
theorem productEvaluatesToProduct : Obligations.ProductEvaluatesToProduct := fun p q x _ _ => polyEval_polyMul p q x

end Sys2Proof.Machine
end

section
/-! PROOFS. The division of polynomials: the loop's equation and the remainder (`42_poly_ops.md` R92,
`93_implementation_defined.md` U6). -/

namespace Sys2Proof.Machine

/-! ### One round of the loop -/

/-- Adding 0 changes nothing. -/
theorem accumulate_zero (r : Poly) (k : Nat) : accumulate r k 0 = r := by
  rw [accumulate, gfAdd, byte_xor_zero]
  obtain h | h := Nat.lt_or_ge k r.length
  · rw [coeff, List.getD_eq_getElem r 0 h, List.set_getElem_self]
  · exact List.set_eq_of_length_le h

/-- One round of the division with the divisor split at its first coefficient, which is not read; the tests for 0 leave out
additions of 0 only. -/
theorem divRound_cons (t : Tables) (c : Byte) (q w : Poly) (i : Nat) : divRound t (c :: q) w i =
    (List.range q.length).foldl (fun w' j => accumulate w' (i + 1 + j) (gfMul t (coeff q j) (coeff w i))) w := by
  have hround (w' : Poly) (j : Nat) : (if coeff (c :: q) (1 + j) = 0 then w' else
      accumulate w' (i + (1 + j)) (gfMul t (coeff (c :: q) (1 + j)) (coeff w i))) =
        accumulate w' (i + 1 + j) (gfMul t (coeff q j) (coeff w i)) := by
    rw [Nat.add_comm 1 j, coeff_cons_succ, Nat.add_comm j 1, Nat.add_assoc]
    split
    case isTrue h => rw [h, gfMul_zero_left, accumulate_zero]
    case isFalse => rfl
  unfold divRound
  split
  case isTrue h => simp only [h, gfMul_zero_right, accumulate_zero, List.foldl_fixed]
  case isFalse =>
    rw [List.range'_eq_map_range, List.foldl_map]
    simp only [hround]
    rfl

/-- The working copy does not depend on the divisor's first coefficient. -/
theorem divWorkingCopy_cons (t : Tables) (p : Poly) (c d : Byte) (q : Poly) :
    divWorkingCopy t p (c :: q) = divWorkingCopy t p (d :: q) := by
  have hround : divRound t (c :: q) = divRound t (d :: q) := by
    funext w i
    rw [divRound_cons, divRound_cons]
  rw [divWorkingCopy, hround]
  rfl

/-- What position `i` adds at position `k` above it: the divisor's coefficient at their distance times the content of `i`. -/
def divTerm (t : Tables) (q w : Poly) (k i : Nat) : Byte :=
  if k - i < q.length then gfMul t (coeff q (k - i)) (coeff w i) else 0

/-- One round of the division adds its term at every position above its own. -/
theorem coeff_divRound (t : Tables) {q w : Poly} {i : Nat} (hq : q ≠ []) (h : i + q.length ≤ w.length) (k : Nat) :
    coeff (divRound t q w i) k = coeff w k ^^^ if i < k then divTerm t q w k i else 0 := by
  cases q with
  | nil => exact absurd rfl hq
  | cons c q =>
    rw [List.length_cons] at h
    rw [divRound_cons, coeff_foldl_accumulate (fun j => gfMul t (coeff q j) (coeff w i)) (by omega)]
    congr 1
    by_cases hk : i < k
    · have hstretch : (i + 1 ≤ k ∧ k < i + 1 + q.length) ↔ k - i < (c :: q).length := by
        rw [List.length_cons]
        omega
      have hcoeff : coeff (c :: q) (k - i) = coeff q (k - (i + 1)) := by
        rw [show k - i = k - (i + 1) + 1 by omega, coeff_cons_succ]
      simp only [hk, if_true, divTerm, hstretch, hcoeff]
    · rw [if_neg hk, if_neg fun hc => hk hc.1]

/-! ### The rounds together -/

/-- The working copy after the first `n` rounds of the division (R92). -/
def divRounds (t : Tables) (p q : Poly) (n : Nat) : Poly := (List.range n).foldl (divRound t q) p

/-- The working copy is what all rounds leave. -/
theorem divWorkingCopy_eq_divRounds (t : Tables) (p q : Poly) :
    divWorkingCopy t p q = divRounds t p q (p.length - q.length + 1) := rfl

/-- One round more. -/
theorem divRounds_succ (t : Tables) (p q : Poly) (n : Nat) :
    divRounds t p q (n + 1) = divRound t q (divRounds t p q n) n := by
  simp only [divRounds, List.range_succ, List.foldl_append, List.foldl_cons, List.foldl_nil]

/-- A round of the division keeps the length. -/
theorem divRound_length (t : Tables) (q w : Poly) (i : Nat) : (divRound t q w i).length = w.length := by
  cases q with
  | nil => unfold divRound; split <;> rfl
  | cons c q =>
    rw [divRound_cons]
    exact foldl_length _ (fun _ _ => accumulate_length _ _ _) _ w

/-- The rounds of the division keep the length. -/
theorem divRounds_length (t : Tables) (p q : Poly) (n : Nat) : (divRounds t p q n).length = p.length :=
  foldl_length _ (divRound_length t q) _ p

/-- The loop's equation after `n` rounds: every position holds the dividend's coefficient plus the terms of the positions
below it that have had their round. A round changes positions above its own only, so the terms already added stay valid. -/
theorem coeff_divRounds (t : Tables) {p q : Poly} (hq : q ≠ []) {n : Nat} (h : n + q.length ≤ p.length + 1) (k : Nat) :
    coeff (divRounds t p q n) k = coeff p k ^^^ xorSum (min k n) (divTerm t q (divRounds t p q n) k) := by
  induction n generalizing k with
  | zero =>
    rw [Nat.min_zero]
    exact (byte_xor_zero _).symm
  | succ n ih =>
    have hround (j : Nat) : coeff (divRounds t p q (n + 1)) j = coeff (divRounds t p q n) j ^^^
        if n < j then divTerm t q (divRounds t p q n) j n else 0 := by
      rw [divRounds_succ, coeff_divRound t hq (by rw [divRounds_length]; omega)]
    have hkept (i : Nat) (hi : i ≤ n) :
        divTerm t q (divRounds t p q (n + 1)) k i = divTerm t q (divRounds t p q n) k i := by
      have hcoeff : coeff (divRounds t p q (n + 1)) i = coeff (divRounds t p q n) i := by
        rw [hround, if_neg (by omega), byte_xor_zero]
      rw [divTerm, hcoeff, divTerm]
    rw [hround, ih (by omega)]
    by_cases hk : n < k
    · rw [if_pos hk, Nat.min_eq_right hk.le, Nat.min_eq_right hk, xorSum_succ, hkept n le_rfl,
        xorSum_congr fun i hi => hkept i hi.le, BitVec.xor_assoc]
    · rw [if_neg hk, byte_xor_zero, Nat.min_eq_left (by omega), Nat.min_eq_left (by omega),
        xorSum_congr fun i hi => hkept i (by omega)]

/-- Settles O39: the working copy is what the rounds leave, and no round reads `q[0]`. -/
theorem remainderByIndexAlgorithm : Obligations.RemainderByIndexAlgorithm := by
  intro t p q h2 h
  have hq : q ≠ [] := List.ne_nil_of_length_pos (by omega)
  refine ⟨⟨divWorkingCopy t p q, divWorkingCopy_length t p q, rfl, fun k _ => ?_⟩, polyDivrem_length t p q h, fun c => ?_⟩
  · exact coeff_divRounds t hq (by omega) k
  · cases q with
    | nil => exact absurd rfl hq
    | cons d q => rw [polyDivrem, List.tail_cons, divWorkingCopy_cons t p c d]; rfl

/-! ### The remainder -/

/-- The coefficients of a sequence's first `n` places. -/
theorem coeff_take (p : Poly) (n i : Nat) : coeff (p.take n) i = if i < n then coeff p i else 0 := by
  simp only [coeff, List.getD_eq_getElem?_getD, List.getElem?_take]
  split <;> rfl

/-- The coefficients from place `n` on. -/
theorem coeff_drop (p : Poly) (n i : Nat) : coeff (p.drop n) i = coeff p (n + i) := by
  simp only [coeff, List.getD_eq_getElem?_getD, List.getElem?_drop]

/-- A position's term is the divisor's coefficient times its content, the coefficients past the divisor's end being 0. -/
theorem divTerm_eq (q w : Poly) (k i : Nat) :
    divTerm builtTables q w k i = gfMul builtTables (coeff w i) (coeff q (k - i)) := by
  unfold divTerm
  split
  case isTrue => exact gfMul_comm _ _
  case isFalse h => rw [coeff_of_length_le (p := q) (by omega), gfMul_zero_right]

/-- The product of a sequence's first `n` places and a divisor with `q[0] = 1`: below place `n` the term of `q[0]` is the
place itself. -/
theorem coeff_polyMul_take {q : Poly} (hmonic : coeff q 0 = 1) (w : Poly) (n k : Nat) :
    coeff (polyMul builtTables (w.take n) q) k =
      xorSum (min k n) (divTerm builtTables q w k) ^^^ if k < n then coeff w k else 0 := by
  have hterm (i : Nat) (hi : i < n) :
      gfMul builtTables (coeff (w.take n) i) (coeff q (k - i)) = divTerm builtTables q w k i := by
    rw [coeff_take, if_pos hi, divTerm_eq]
  rw [coeff_polyMul, convolution]
  by_cases hk : k < n
  · rw [xorSum_succ, xorSum_congr fun i hi => hterm i (hi.trans hk), Nat.min_eq_left hk.le, if_pos hk, Nat.sub_self, hmonic,
      gfMul_one_right, coeff_take, if_pos hk]
  · have hpast (i : Nat) (hi : n ≤ i) : gfMul builtTables (coeff (w.take n) i) (coeff q (k - i)) = 0 := by
      rw [coeff_take, if_neg (Nat.not_lt.mpr hi), gfMul_zero_left]
    rw [xorSum_of_le (m := n) (by omega) hpast, xorSum_congr hterm, Nat.min_eq_right (by omega), if_neg hk, byte_xor_zero]

/-- Settles O40: the quotient is the working copy below the remainder. There the loop's equation is the convolution without
the term of `q[0] = 1`, which is the position itself; above, the position is the remainder's. -/
theorem monicDivisionLeavesRemainder : Obligations.MonicDivisionLeavesRemainder := by
  intro p q h2 h hmonic
  obtain ⟨⟨w, hlen, hrem, hloop⟩, -⟩ := remainderByIndexAlgorithm builtTables p q h2 h
  generalize hn : p.length - q.length + 1 = n at hrem hloop ⊢
  have hquotient : (w.take n).length = n := List.length_take_of_le (by omega)
  refine ⟨w.take n, hquotient, fun k hk => ?_⟩
  have hw : coeff w k = coeff p k ^^^ xorSum (min k n) (divTerm builtTables q w k) := hloop k hk
  have hp : coeff p k = xorSum (min k n) (divTerm builtTables q w k) ^^^ coeff w k := by
    rw [hw, BitVec.xor_comm, BitVec.xor_assoc, BitVec.xor_self]
    exact (byte_xor_zero _).symm
  rw [coeff_polyMul_take hmonic, hquotient, hrem, coeff_drop, gfAdd, hp]
  split
  case isTrue => rw [byte_xor_zero]
  case isFalse hkn => rw [byte_xor_zero, Nat.add_sub_cancel' (Nat.not_lt.mp hkn)]

end Sys2Proof.Machine
end
